-- ==== Sys2Proof/Word.lean ====
section
/-!
DEFINITION. Words: a byte (00_scope.md R12), the fixed eight-byte payload (10_state.md R33,
30_encoding.md R60) and its flat 64-bit port image (10_state.md R34, 20_memory.md R46).
All other widths are parameters (Config.lean) and appear as `BitVec n`.
-/

namespace Sys2Proof

/-- A byte is 8 bits (00_scope.md R12). -/
abbrev Byte := BitVec 8

/-- The fixed 8-byte sequence; byte `i` stands at offset `i` (00_scope.md R12, 20_memory.md R43). -/
abbrev Payload := Vector Byte 8

/-- The 64-bit `payload` port (10_state.md R34). -/
abbrev Flat := BitVec 64

end Sys2Proof
end

