-- ==== Sys2Proof/Config.lean ====
section
/-!
DEFINITION. What is fixed when a block is built, and what its integrator drives on the configuration
ports: the five implementation parameters (00_scope.md R9) and the configuration record with its
defaults (10_state.md R25 to R30). The spec leaves no result undefined, so there is no free value here.
-/

namespace Sys2Proof

/-- The implementation parameters `CNT_W`, `ANG_W`, `ANG_FRAC_W` (written `F`), `SPD_W`, `ID_W`
(00_scope.md R9). The constraint column of R9 is `Params.legal` and `Params.accLegal` in WellFormed.lean. -/
structure Params where
  cntW  : Nat
  angW  : Nat
  fracW : Nat
  spdW  : Nat
  idW   : Nat
deriving DecidableEq, Repr

/-- The default column of R9. -/
def Params.default : Params := { cntW := 16, angW := 32, fracW := 0, spdW := 16, idW := 11 }

/-- A length of time as a fraction of a second.
DESIGN CHOICE (log 12): the spec gives the interval in seconds and no format. -/
structure Seconds where
  num : Nat
  den : Nat
deriving DecidableEq, Repr

/-- The configuration record, five values (10_state.md R25). The first four are input ports; the fifth
belongs to the external tick source, and no step reads it (R30). -/
structure Cfg (P : Params) where
  deviceId     : BitVec P.idW
  speedLimit   : BitVec P.spdW
  stepSize     : BitVec P.cntW
  wrapBound    : BitVec P.cntW
  tickInterval : Seconds
deriving DecidableEq, Repr

/-- The source's defaults 500, 1, 360 and 0.1 s (R27 to R30). The spec gives the identifier no default
(R26, D13): the integrator supplies it, so it is an argument here. -/
def Cfg.default (P : Params) (deviceId : BitVec P.idW) : Cfg P :=
  { deviceId
    speedLimit   := BitVec.ofNat P.spdW 500
    stepSize     := BitVec.ofNat P.cntW 1
    wrapBound    := BitVec.ofNat P.cntW 360
    tickInterval := { num := 1, den := 10 } }

end Sys2Proof
end

