-- ==== Sys2Proof/Syntax.lean ====
section
/-!
DEFINITION. The rows of spec/opcode_table.json, one constructor each: the frame format FRAME8
(30_encoding.md R60, R61) and the three control decodes (R68).
-/

namespace Sys2Proof

/-- The four operations of the opcode table. -/
inductive Instr where
  /-- POSCTL_SPD, position control with speed limit. The operands are the two variable fields of the
  word: `speed` is `speed16`, `angle` is `angle32` (R61, R67), the two fields of a MotorCommand
  (10_state.md R32). The identifier travels beside the word. -/
  | posctlSpd (speed : BitVec 16) (angle : BitVec 32)
  /-- RESET, ctrl = `1t`. `t` is the `tick` pin, ignored by the meaning (70_reset_and_hazards.md R171)
  and kept here so that no bit of the word is dropped (log 20). -/
  | reset (t : Bool)
  /-- TICK, ctrl = `01` (41_sweep_accumulator.md R110). -/
  | tick
  /-- HOLD, ctrl = `00` (41_sweep_accumulator.md R116). -/
  | hold
deriving DecidableEq, Repr

end Sys2Proof
end

