-- ==== Sys2Proof/WellFormed.lean ====
section
/-!
DEFINITION. Well-formedness: the constraint column of 00_scope.md R9 for the parameters, the legal
values of the configuration (10_state.md R29), and of the instructions, where the spec shuts out nothing
(30_encoding.md R67, R69: every setting of the fields is a FRAME8 word, every `ctrl` selects a step).
These are premises for claims; the machine checks none of them (60_exceptions.md R151).
-/

namespace Sys2Proof

/-- The constraints of R9 on each parameter alone. -/
def Params.legal (P : Params) : Bool :=
  decide (1 ≤ P.cntW) && decide (2 ≤ P.angW) && decide (P.fracW < P.angW)
    && decide (16 ≤ P.spdW) && decide (1 ≤ P.idW)

/-- The constraint of R9 that holds "when ACC drives ENC": `ANG_W >= CNT_W + ANG_FRAC_W + 1`, with all
the others. -/
def Params.accLegal (P : Params) : Bool :=
  P.legal && decide (P.cntW + P.fracW + 1 ≤ P.angW)

/-- The legal configuration: a bound of at least 1 (R29); every value of the other ports is legal
(R26, R27, R28). -/
def Cfg.legal {P : Params} (c : Cfg P) : Bool := decide (1 ≤ c.wrapBound.toNat)

/-- Every operand of every instruction is legal (R67, R68, R69). -/
def Instr.wellFormed : Instr → Bool
  | .posctlSpd _ _ => true
  | .reset _ => true
  | .tick => true
  | .hold => true

end Sys2Proof
end

