-- ==== Sys2Proof/Decode.lean ====
section
/-!
DEFINITION. Words to instructions and back, from 30_encoding.md R61, R67, R68 and spec/opcode_table.json.
A CTRL word `{rst, tick}` is carried as one byte whose upper six bits are 0, a FRAME8 word as its eight
payload bytes, byte 0 first (log 7). `decode` is total on every list of bytes and rejects by name.
-/

namespace Sys2Proof

/-- Why a list of bytes is no instruction. -/
inductive DecodeError where
  /-- Neither one byte (CTRL) nor eight (FRAME8, R71). -/
  | badLength
  /-- A CTRL byte with a bit set that is no control pin. -/
  | notControl
  /-- Byte 0 is not `0xA4` (R62, R69; 93_implementation_defined.md U4: refuse). -/
  | badOpcode
  /-- Byte 1 is not `0x00` (R63, R69; 93_implementation_defined.md U3: refuse). -/
  | badReserved
deriving DecidableEq, Repr

/-- One row of the opcode table: its words are those with `w &&& mask = pattern` (R67). -/
structure TableRow where
  mnemonic : String
  width    : Nat
  pattern  : Nat
  mask     : Nat
deriving DecidableEq, Repr

/-- spec/opcode_table.json. -/
def opcodeTable : List TableRow :=
  [ { mnemonic := "POSCTL_SPD", width := 64, pattern := 0x00000000000000A4, mask := 0x000000000000FFFF },
    { mnemonic := "RESET", width := 2, pattern := 0x2, mask := 0x2 },
    { mnemonic := "TICK", width := 2, pattern := 0x1, mask := 0x3 },
    { mnemonic := "HOLD", width := 2, pattern := 0x0, mask := 0x3 } ]

/-- Byte `j` of a word, bits [8j+7:8j] (00_scope.md R11). -/
def byteOf {n : Nat} (v : BitVec n) (j : Nat) : Byte := v.extractLsb' (8 * j) 8

/-- `ctrl = {rst, tick}` as a byte, bit 1 = rst, bit 0 = tick (R68). -/
def ctrlByte (rst tick : Bool) : Byte := 0#6 ++ BitVec.ofBool rst ++ BitVec.ofBool tick

/-- The control decode (R68): reset wins over tick. -/
def decodeCtrl (c : Byte) : Except DecodeError Instr :=
  if c.extractLsb' 2 6 ≠ 0#6 then .error .notControl
  else match c.getLsbD 1, c.getLsbD 0 with
    | true, t => .ok (.reset t)
    | false, true => .ok .tick
    | false, false => .ok .hold

/-- The FRAME8 decode (R61, R67; little-endian fields, 20_memory.md R41, R42). -/
def decodeFrame8 (p0 p1 p2 p3 p4 p5 p6 p7 : Byte) : Except DecodeError Instr :=
  if p0 ≠ 0xA4#8 then .error .badOpcode
  else if p1 ≠ 0x00#8 then .error .badReserved
  else .ok (.posctlSpd (p3 ++ p2) (p7 ++ p6 ++ p5 ++ p4))

/-- The decoder, total on any bytes. -/
def decode : List Byte → Except DecodeError Instr
  | [c] => decodeCtrl c
  | [p0, p1, p2, p3, p4, p5, p6, p7] => decodeFrame8 p0 p1 p2 p3 p4 p5 p6 p7
  | _ => .error .badLength

/-- The encoder: the bytes of an instruction, from the same tables (R43, R61, R68). -/
def encode : Instr → List Byte
  | .posctlSpd speed angle =>
      [0xA4#8, 0x00#8, byteOf speed 0, byteOf speed 1,
        byteOf angle 0, byteOf angle 1, byteOf angle 2, byteOf angle 3]
  | .reset t => [ctrlByte true t]
  | .tick => [ctrlByte false true]
  | .hold => [ctrlByte false false]

/-- The `n` bytes of a word, least significant first (spec/opcode_table.json: byte `i` is bits [8i+7:8i]). -/
def wordBytes : Nat → Nat → List Byte
  | 0, _ => []
  | n + 1, w => BitVec.ofNat 8 w :: wordBytes n (w / 256)

/-- What the decoder reads from a word of the opcode table. -/
def decodeTableWord (nbits w : Nat) : Option Instr :=
  match decode (wordBytes ((nbits + 7) / 8) w) with
  | .ok i => some i
  | .error _ => none

end Sys2Proof
end

