-- ==== Sys2Proof/Machine/State.lean ====
section
/-!
DEFINITION. The state as plain data. The block's own state is the one register `cur` (10_state.md R20,
R21, R37). Beside it stand what a step of the host's interface has no other place for: the parameters the
block is built with (00_scope.md R9, log 1), the input pins of this step and of the coming ones (R34,
log 2), and the record of what has left the block (20_memory.md R49, log 4).
-/

namespace Sys2Proof.Machine

/-- MotorCommand, the wire bundle between the scaling and the packing stage of ENC (10_state.md R32,
40_frame_encoder.md R84): `angle32` is the source's `target_angle_centidegrees : i32`, `speed16` its
`speed_limit_dps : u16`. -/
structure MotorCommand (idW : Nat) where
  angle32 : BitVec 32
  speed16 : BitVec 16
  id      : BitVec idW
deriving DecidableEq, Repr

/-- CanFrame: arbitration identifier and 8-byte payload (10_state.md R33). -/
structure CanFrame (idW : Nat) where
  arbId   : BitVec idW
  payload : Payload
deriving DecidableEq, Repr

/-- Which unit a step exercises. DESIGN CHOICE (logs 5, 6). -/
inductive Drive where
  /-- One clock cycle of the block: the control pins select RESET, TICK or HOLD (30_encoding.md R68). -/
  | control
  /-- One use of the stand-alone encoder with the values on its three input pins (10_state.md R34,
  40_frame_encoder.md R80). -/
  | encoder
  /-- A FRAME8 word handed in from outside in place of the encoder's scaled inputs. No pin of the
  hardware: it is how a word of the opcode table is placed (log 6). -/
  | frame (word : Flat)
deriving DecidableEq, Repr

/-- The input pins in one step (10_state.md R34). `clk` is the step itself. -/
structure Pins (P : Params) where
  drive    : Drive
  rst      : Bool
  tick     : Bool
  cfg      : Cfg P
  encAngle : BitVec P.angW
  encSpeed : BitVec P.spdW
  encId    : BitVec P.idW
deriving DecidableEq, Repr

/-- A block built with parameters `P`, its pins, and what has left it. -/
structure Block (P : Params) where
  /-- The register: the current angle in whole degrees (R21). -/
  cur     : BitVec P.cntW
  /-- The input pins of the coming step. -/
  pins    : Pins P
  /-- What the environment drives in the steps after it, soonest first (log 2). -/
  future  : List (Pins P)
  /-- Frames dispatched at the port so far, oldest first. A record, not block state: no step reads it (log 4). -/
  emitted : List (CanFrame P.idW)
  /-- Outputs of the stand-alone encoder's uses so far, oldest first. A record: no step reads it (log 4). -/
  encoded : List (CanFrame P.idW)
deriving DecidableEq, Repr

/-- The machine: a block together with the parameters it is built with. -/
structure State where
  params : Params
  block  : Block params
deriving DecidableEq, Repr

/-- The block raises no exception, fault, trap or error, ever (60_exceptions.md R150: the table of cause
codes is empty), so the type of faults has no constructor. -/
inductive Fault where
deriving DecidableEq, Repr

/-- Reasons a step has no meaning. -/
inductive Refusal where
  /-- Raised by `exec`'s arm of an instruction that has no meaning yet; safe. No arm raises it. -/
  | notModelled (mnemonic : String)
  /-- Raised by `step` for a raw word (`Drive.frame`) that is no FRAME8 frame, never for anything on
  the hardware's pins; safe (30_encoding.md R69; 93_implementation_defined.md U3, U4: refuse). -/
  | notAFrame (e : DecodeError)
deriving DecidableEq, Repr

/-- The pins of State.reset: the source's defaults on the configuration ports (10_state.md R36), both
control pins low. DESIGN CHOICE (log 10): the device identifier, for which the spec gives no default, is 0.
DESIGN CHOICE (log 11): `rst`, `tick` and the stand-alone encoder's three pins are 0. -/
def Pins.atReset (P : Params) : Pins P :=
  { drive := .control, rst := false, tick := false, cfg := Cfg.default P 0#_
    encAngle := 0#_, encSpeed := 0#_, encId := 0#_ }

/-- The block right after reset: `cur` is 0 (70_reset_and_hazards.md R171, 10_state.md R36), nothing has
left it, the environment's list is empty. -/
def Block.atReset (P : Params) : Block P :=
  { cur := 0#_, pins := Pins.atReset P, future := [], emitted := [], encoded := [] }

/-- The machine right after reset, with the default parameters (00_scope.md R9). -/
def State.reset : State := { params := Params.default, block := Block.atReset Params.default }

end Sys2Proof.Machine
end

