-- ==== Sys2Proof/Machine/Operands.lean ====
section
/-!
DEFINITION. The operand forms: the first stages of ENC, from its input pins to the bytes of its two
fields (40_frame_encoder.md R81 to R86), and the operand ACC gives it (41_sweep_accumulator.md R111).
Widths are arguments, so each definition holds for every value of the parameters.
-/

namespace Sys2Proof.Machine

/-- `tdiv(p, d)`: the quotient rounded toward zero, for `d > 0` (00_scope.md R14). -/
def tdiv (p d : Int) : Int := Int.tdiv p d

/-- `round_toward_zero(r)` of a rational `r`: `floor(r)` for `r >= 0` and `-floor(-r)` for `r < 0`
(00_scope.md R14). No step uses it; claims say with it what `tdiv` is. -/
def roundTowardZero (r : Rat) : Int := if 0 ≤ r then r.floor else -(-r).floor

/-- SCALE (R81): `A := sint(enc_angle)`; `P := A * 100`, exact; `centi := tdiv(P, 2^F)`. -/
def scale {angW : Nat} (F : Nat) (angle : BitVec angW) : Int :=
  tdiv (angle.toInt * 100) ((2 ^ F : Nat) : Int)

/-- WRAP32 (R82): `bv_32(centi)`, the low 32 bits. -/
def wrap32 (centi : Int) : BitVec 32 := BitVec.ofInt 32 centi

/-- SPEED16 (R83): `enc_speed[15:0]`. -/
def speed16 {spdW : Nat} (speed : BitVec spdW) : BitVec 16 := speed.extractLsb' 0 16

/-- NORMALISE (R84): the MotorCommand of the three inputs. -/
def normalise {angW spdW idW : Nat} (F : Nat) (angle : BitVec angW) (speed : BitVec spdW)
    (id : BitVec idW) : MotorCommand idW :=
  { angle32 := wrap32 (scale F angle), speed16 := speed16 speed, id }

/-- SPEED BYTES (R85), the less significant. -/
def speedLow (s : BitVec 16) : Byte := s.extractLsb' 0 8

/-- SPEED BYTES (R85), the more significant. -/
def speedHigh (s : BitVec 16) : Byte := s.extractLsb' 8 8

/-- ANGLE BYTES (R86): `b0` to `b3`, `bj = angle32[8j+7:8j]`. -/
def angleByte (a : BitVec 32) (j : Nat) : Byte := a.extractLsb' (8 * j) 8

/-- BUILD (R111): the angle input of ENC is the current angle as a whole number of degrees,
`zext_ANG_W(cur)` shifted left by `F` bits. -/
def buildAngle {cntW : Nat} (angW F : Nat) (cur : BitVec cntW) : BitVec angW :=
  cur.setWidth angW <<< F

end Sys2Proof.Machine
end

