-- ==== Sys2Proof/Machine/Flags.lean ====
section
/-!
DEFINITION. There are no flags (10_state.md R24). What stands here is the one comparison of the block
(41_sweep_accumulator.md R114, R115), the one output bit computed from the pins (42_dispatch.md R141),
and the two range predicates of 40_frame_encoder.md R91, which are premises for claims and no signals.
-/

namespace Sys2Proof.Machine

/-- The mathematical sum of R114: exact, never narrowed before the comparison. -/
def sum {cntW : Nat} (cur stepSize : BitVec cntW) : Nat := cur.toNat + stepSize.toNat

/-- The comparison of R115: unsigned greater-or-equal on the exact values. -/
def sumReachesBound {cntW : Nat} (cur stepSize wrapBound : BitVec cntW) : Bool :=
  decide (wrapBound.toNat ≤ sum cur stepSize)

/-- `SpeedInRange(S)` (R91). -/
abbrev SpeedInRange (S : Int) : Prop := 0 ≤ S ∧ S ≤ 65535

/-- `AngleInRange(A)` (R91), with `A = sint(enc_angle)`. -/
abbrev AngleInRange (F : Nat) (A : Int) : Prop :=
  -2 ^ 31 ≤ tdiv (A * 100) ((2 ^ F : Nat) : Int) ∧ tdiv (A * 100) ((2 ^ F : Nat) : Int) ≤ 2 ^ 31 - 1

/-- This step is a TICK step of the block: `rst = 0, tick = 1` (30_encoding.md R68). -/
def Pins.selectsTick {P : Params} (p : Pins P) : Bool :=
  decide (p.drive = .control) && !p.rst && p.tick

/-- This step is a RESET step of the block: `rst = 1` (30_encoding.md R68). -/
def Pins.selectsReset {P : Params} (p : Pins P) : Bool :=
  decide (p.drive = .control) && p.rst

/-- `frame_valid = tick and not rst` (10_state.md R38, 42_dispatch.md R141), in a clock cycle of the
block; low in a step that is none (log 5). -/
def Block.frameValid {P : Params} (b : Block P) : Bool := b.pins.selectsTick

end Sys2Proof.Machine
end

