-- ==== Sys2Proof/Machine/Ops.lean ====
section
/-!
DEFINITION. The named operations the meanings and the step share: PACK and the whole of ENC
(40_frame_encoder.md R80, R87 to R89), the advance of the register (41_sweep_accumulator.md R113), the
ports as functions of the state (10_state.md R38), dispatch (42_dispatch.md R140, R141), the word a step
fetches and the pins of the next step. There is no memory (20_memory.md R40) and no exception to take or to
return from (60_exceptions.md R150, R155, R156), so there is no operation for either.
-/

namespace Sys2Proof.Machine

/-- PACK (R87) with ID (R88): all eight bytes, and the identifier unchanged. -/
def pack {idW : Nat} (cmd : MotorCommand idW) : CanFrame idW :=
  { arbId := cmd.id
    payload := #v[0xA4#8, 0x00#8, speedLow cmd.speed16, speedHigh cmd.speed16,
      angleByte cmd.angle32 0, angleByte cmd.angle32 1, angleByte cmd.angle32 2, angleByte cmd.angle32 3] }

/-- ENCODE (R80): `frame := PACK(NORMALISE(enc_angle, enc_speed, enc_id))`. -/
def enc {angW spdW idW : Nat} (F : Nat) (angle : BitVec angW) (speed : BitVec spdW)
    (id : BitVec idW) : CanFrame idW :=
  pack (normalise F angle speed id)

/-- The flat port image of a payload (20_memory.md R46):
`{b3, b2, b1, b0, speed_high, speed_low, 8'h00, 8'hA4}`, byte `i` at bits [8i+7:8i]. -/
def flat (p : Payload) : Flat := p[7] ++ p[6] ++ p[5] ++ p[4] ++ p[3] ++ p[2] ++ p[1] ++ p[0]

/-- ADVANCE (R113): on a wrap the register is set to 0, not to a remainder (90_conflicts.md C1). -/
def advance {cntW : Nat} (cur stepSize wrapBound : BitVec cntW) : BitVec cntW :=
  if sumReachesBound cur stepSize wrapBound then 0#cntW else BitVec.ofNat cntW (sum cur stepSize)

variable {P : Params}

/-- `cur_angle = cur` (10_state.md R38). -/
def Block.curAngle (b : Block P) : BitVec P.cntW := b.cur

/-- ENC on the current angle and configuration (R38, R111): what the full block's port shows. -/
def Block.portFrame (b : Block P) : CanFrame P.idW :=
  enc P.fracW (buildAngle P.angW P.fracW b.cur) b.pins.cfg.speedLimit b.pins.cfg.deviceId

/-- The `arb_id` port (R38). -/
def Block.arbId (b : Block P) : BitVec P.idW := b.portFrame.arbId

/-- The `payload` port (R38, R46). -/
def Block.payload (b : Block P) : Flat := flat b.portFrame.payload

/-- The MotorCommand of the stand-alone encoder's pins (R84). -/
def Block.encCommand (b : Block P) : MotorCommand P.idW :=
  normalise P.fracW b.pins.encAngle b.pins.encSpeed b.pins.encId

/-- The stand-alone encoder's `enc_arb_id` port (R34, R80). -/
def Block.encArbId (b : Block P) : BitVec P.idW := (pack b.encCommand).arbId

/-- The stand-alone encoder's `enc_payload` port (R34, R80). -/
def Block.encPayload (b : Block P) : Flat := flat (pack b.encCommand).payload

/-- `cur <- v` (00_scope.md R15). -/
def Block.setCur (b : Block P) (v : BitVec P.cntW) : Block P := { b with cur := v }

/-- `emit(frame)` (R141): the frame appears on the port in this step. The transport's result is not
looked at, and nothing in the block depends on it (R142). -/
def Block.emit (b : Block P) (f : CanFrame P.idW) : Block P := { b with emitted := b.emitted ++ [f] }

/-- A frame appears on the stand-alone encoder's outputs. -/
def Block.output (b : Block P) (f : CanFrame P.idW) : Block P := { b with encoded := b.encoded ++ [f] }

/-- The pins the environment drives when its list has ended: both control pins low, everything else as
it was (42_dispatch.md R145, ceasing ticks). DESIGN CHOICE (log 3). -/
def Pins.idle (p : Pins P) : Pins P := { p with drive := .control, rst := false, tick := false }

/-- The end of the step: the environment drives the pins of the next one. -/
def Block.nextPins (b : Block P) : Block P :=
  match b.future with
  | [] => { b with pins := b.pins.idle }
  | p :: rest => { b with pins := p, future := rest }

/-- The word a step runs. In a clock cycle it is `{rst, tick}` (30_encoding.md R68); in a use of the
stand-alone encoder it is the FRAME8 word assembled from its pins by NORMALISE (R84; the "assembly" of the
table's fields); a raw word is taken as it stands (log 6). -/
def Block.fetch (b : Block P) : List Byte :=
  match b.pins.drive with
  | .control => [ctrlByte b.pins.rst b.pins.tick]
  | .encoder => encode (.posctlSpd b.encCommand.speed16 b.encCommand.angle32)
  | .frame w => wordBytes 8 w.toNat

/-- One effect on the block, the parameters being fixed. -/
def State.update (s : State) (f : Block s.params → Block s.params) : State :=
  { params := s.params, block := f s.block }

/-- What a step does after the meaning: on a next state, the pins of the next step. -/
def endOfStep : Host.Outcome State Fault Refusal → Host.Outcome State Fault Refusal
  | .next t => .next (t.update Block.nextPins)
  | .fault r => .fault r
  | .refused r => .refused r

/-- Placing a word of the opcode table where the next step runs it: a CTRL word on the control pins, a
longer word as the raw word. -/
def Block.withWord (b : Block P) (nbits w : Nat) : Block P :=
  if nbits ≤ 8 then
    { b with pins := { b.pins with drive := .control, rst := w.testBit 1, tick := w.testBit 0 } }
  else { b with pins := { b.pins with drive := .frame (BitVec.ofNat 64 w) } }

end Sys2Proof.Machine
end

