-- ==== Sys2Proof/Machine/Encoder.lean ====
section
/-!
DEFINITION. The meaning of POSCTL_SPD: the packing half of ENCODE (40_frame_encoder.md R80, R84 to R88)
on a MotorCommand whose fields are the word's. The scaling half, NORMALISE, has made those fields from the
encoder's pins before (`Block.fetch`; log 21).
-/

namespace Sys2Proof.Machine

/-- POSCTL_SPD (R80): `frame := PACK(cmd)`, `arb_id := enc_id`; output `frame`. No state of the block is
read or written (R90). -/
def execPosctlSpd (speed : BitVec 16) (angle : BitVec 32) (s : State) :
    Host.Outcome State Fault Refusal :=
  .next (s.update fun b =>
    b.output (pack { angle32 := angle, speed16 := speed, id := b.pins.encId }))

end Sys2Proof.Machine
end

