-- ==== Sys2Proof/Machine/Sweep.lean ====
section
/-!
DEFINITION. The meanings of the three steps of the block: TICK (41_sweep_accumulator.md R110), HOLD
(R116) and RESET (70_reset_and_hazards.md R171).
-/

namespace Sys2Proof.Machine

/-- TICK (R110): the frame is built from the old `cur` (R111) and emitted (R112, 42_dispatch.md R140);
then `cur` advances (R113). -/
def execTick (s : State) : Host.Outcome State Fault Refusal :=
  .next (s.update fun b =>
    (b.emit b.portFrame).setCur (advance b.cur b.pins.cfg.stepSize b.pins.cfg.wrapBound))

/-- HOLD (R116): nothing; `cur` keeps its value, no frame. -/
def execHold (s : State) : Host.Outcome State Fault Refusal := .next s

/-- RESET (R171): `cur <- 0`, whatever `tick` is; no frame. -/
def execReset (_t : Bool) (s : State) : Host.Outcome State Fault Refusal :=
  .next (s.update fun b => b.setCur 0#_)

end Sys2Proof.Machine
end

