-- ==== Sys2Proof/Machine/Dispatch.lean ====
section
/-! DEFINITION. One arm per instruction; the meanings stand in Machine/Encoder.lean and Machine/Sweep.lean. -/

namespace Sys2Proof.Machine

def exec (i : Instr) (s : State) : Host.Outcome State Fault Refusal :=
  match i with
  | .posctlSpd speed angle => Sys2Proof.Machine.execPosctlSpd speed angle s
  | .reset t => Sys2Proof.Machine.execReset t s
  | .tick => Sys2Proof.Machine.execTick s
  | .hold => Sys2Proof.Machine.execHold s

end Sys2Proof.Machine
end

