-- ==== Sys2Proof/Machine/Step.lean ====
section
/-!
DEFINITION. One step: a clock cycle of the block, classed by its control pins (00_scope.md R8,
30_encoding.md R68), or a use of the stand-alone encoder (log 5).
-/

namespace Sys2Proof.Machine

/-- Decode the step's word, run its meaning, then take the pins of the next step. -/
def step (s : State) : Host.Outcome State Fault Refusal :=
  match decode s.block.fetch with
  | .ok i => endOfStep (exec i s)
  | .error e => .refused (.notAFrame e)

/-- `s` with a word of the opcode table placed so that the very next step runs it (log 8). -/
def State.withFetchWord (s : State) (nbits w : Nat) : State :=
  s.update fun b => b.withWord nbits w

end Sys2Proof.Machine
end

