-- ==== Sys2Proof/Machine/Realise.lean ====
section
/-!
DEFINITION. Realisations the spec describes beside its clear definitions: the truncating division by a
shift (40_frame_encoder.md R94), the product from the low 32 bits when `F = 0` (R95), and the accumulator's
adder at a given width (70_reset_and_hazards.md R178). No step uses them; claims relate them to
Operands.lean and Ops.lean.
-/

namespace Sys2Proof.Machine

/-- `tdiv(P, 2^F)` as `(P + bias) >>a F` with `bias = 2^F - 1` when `P < 0` and `bias = 0` otherwise,
on unbounded integers (R94). -/
def tdivByShift (p : Int) (F : Nat) : Int :=
  (p + if p < 0 then ((2 ^ F : Nat) : Int) - 1 else 0) >>> F

/-- SCALE computed at a width of `n` bits by the shift of R94: the product, the bias and the arithmetic
shift are all on `n`-bit vectors. -/
def scaleByShift {angW : Nat} (n F : Nat) (angle : BitVec angW) : BitVec n :=
  let p := angle.signExtend n * 100#n
  (p + if p.msb then BitVec.ofNat n (2 ^ F - 1) else 0#n).sshiftRight F

/-- The integer case (R95): the product formed from the low 32 bits of the angle. -/
def angle32FromLowBits {angW : Nat} (angle : BitVec angW) : BitVec 32 :=
  BitVec.ofNat 32 ((BitVec.ofInt 32 angle.toInt).toNat * 100)

/-- ADVANCE with its sum formed and compared at `n` bits (R178: right at `CNT_W + 1`, wrong at `CNT_W`). -/
def advanceAtWidth {cntW : Nat} (n : Nat) (cur stepSize wrapBound : BitVec cntW) : BitVec cntW :=
  let t := cur.setWidth n + stepSize.setWidth n
  if wrapBound.setWidth n ≤ t then 0#cntW else t.setWidth cntW

end Sys2Proof.Machine
end

