-- ==== Sys2Proof/Machine/Receiver.lean ====
section
/-!
DEFINITION. DECODE (40_frame_encoder.md R92): a function of the spec, not of the block, given for the
round-trip property. It refuses what is no frame of the block (30_encoding.md R69).
-/

namespace Sys2Proof.Machine

/-- What a reader recovers from a payload: `s'` in degrees per second and `c'` in centidegrees. -/
structure ReadBack where
  speed : Nat
  centi : Int
deriving DecidableEq, Repr

/-- `s' := payload[2] + payload[3] * 2^8`; `c' := sint({payload[7], payload[6], payload[5], payload[4]})`. -/
def readBack (p : Payload) : Option ReadBack :=
  if p[0] = 0xA4#8 ∧ p[1] = 0x00#8 then
    some { speed := p[2].toNat + p[3].toNat * 2 ^ 8, centi := (p[7] ++ p[6] ++ p[5] ++ p[4]).toInt }
  else none

/-- `a' := c' / 100` degrees. -/
def ReadBack.degrees (r : ReadBack) : Rat := (r.centi : Rat) / 100

end Sys2Proof.Machine
end

