-- ==== Sys2Proof/Machine/Text.lean ====
section
/-!
DEFINITION. The textual forms of 30_encoding.md R70 and R72, for reference: the call form of the encoder,
the transport's hexadecimal text without interface name and separator (91_not_in_source.md N8), and the
reading of a bare digit string as hexadecimal. No step uses them (42_dispatch.md R143).
DESIGN CHOICE (log 16): upper-case digits and no leading zeros in the identifier.
-/

namespace Sys2Proof.Machine

/-- One hexadecimal digit. -/
def hexDigit (n : Nat) : Char :=
  if n < 10 then Char.ofNat (48 + n) else Char.ofNat (55 + n)

/-- The value of one hexadecimal digit, of either case. -/
def hexValue (c : Char) : Option Nat :=
  let n := c.toNat
  if 48 ≤ n ∧ n ≤ 57 then some (n - 48)
  else if 65 ≤ n ∧ n ≤ 70 then some (n - 55)
  else if 97 ≤ n ∧ n ≤ 102 then some (n - 87)
  else none

/-- A byte as two hexadecimal digits. -/
def hexByte (b : Byte) : List Char := [hexDigit (b.toNat / 16), hexDigit (b.toNat % 16)]

/-- The data part: the 8 payload bytes as hexadecimal pairs, byte 0 first (R70). -/
def dataText (p : Payload) : List Char := p.toList.flatMap hexByte

/-- The lowest `n` hexadecimal digits of a number, most significant first. -/
def hexDigits : Nat → Nat → List Char
  | 0, _ => []
  | n + 1, x => hexDigits n (x / 16) ++ [hexDigit (x % 16)]

/-- The identifier part: the arbitration identifier in hexadecimal (R70). -/
def idText {idW : Nat} (id : BitVec idW) : List Char :=
  match (hexDigits (idW / 4 + 1) id.toNat).dropWhile (· == '0') with
  | [] => ['0']
  | ds => ds

/-- A bare digit string is hexadecimal (R72): `"141"` is `0x141`. An empty string or a character that
is no hexadecimal digit has no value. -/
def idOfText : List Char → Option Nat
  | [] => none
  | cs => cs.foldl (fun acc c => do return (← acc) * 16 + (← hexValue c)) (some 0)

/-- The call form `encode(target_angle_degrees, speed_limit_dps, device_id)` for a block with parameters
`P` (R70): `angle` counts units of `2^-F` degrees, so with `F = 0` it is in degrees. -/
def encodeCall (P : Params) (angle speed : Int) (id : Nat) : CanFrame P.idW :=
  enc P.fracW (BitVec.ofInt P.angW angle) (BitVec.ofInt P.spdW speed) (BitVec.ofNat P.idW id)

end Sys2Proof.Machine
end

