-- ==== Sys2Proof/Safety.lean ====
section
/-!
DEFINITION. The terms in which claims speak of safe runs: runs, the environment's duties
(42_dispatch.md R146), the invariant of 10_state.md R35, and the sequence laws' numbers
(41_sweep_accumulator.md R117).
-/

namespace Sys2Proof

/-- The configuration without the interval, which no port carries (10_state.md R30). -/
def Cfg.ports {P : Params} (c : Cfg P) : Cfg P := { c with tickInterval := { num := 0, den := 1 } }

end Sys2Proof

namespace Sys2Proof.Machine

/-- `n` steps of the machine, through the host's interface. -/
def run (n : Nat) (s : State) : Host.Outcome State Fault Refusal := Sys2Proof.core.run n s

variable {P : Params}

/-- The configuration ports keep their values for every step to come (R31, R146). -/
abbrev Block.ConstantCfg (b : Block P) : Prop := ∀ p ∈ b.future, p.cfg = b.pins.cfg

/-- The angle lies in `[0, wrap_bound)` (R35). -/
abbrev Block.InRange (b : Block P) : Prop := b.cur.toNat < b.pins.cfg.wrapBound.toNat

/-- The invariant of R35 with the premise it rests on: a constant configuration. A bound of at least 1
follows from `InRange`. -/
abbrev State.Inv (s : State) : Prop := s.block.ConstantCfg ∧ s.block.InRange

/-- A frame of the block: byte 0 is `0xA4` and byte 1 is `0x00` (30_encoding.md R62, R63, R69). -/
abbrev CanFrame.IsFrame8 {idW : Nat} (f : CanFrame idW) : Prop := f.payload[0] = 0xA4#8 ∧ f.payload[1] = 0x00#8

/-- The pins presented in the `k`-th step from now. -/
def Block.pinsAt : Nat → Block P → Pins P
  | 0, b => b.pins
  | k + 1, b => Block.pinsAt k b.nextPins

/-- How many of the next `n` steps are TICK steps. -/
def Block.ticksIn : Nat → Block P → Nat
  | 0, _ => 0
  | n + 1, b => (if b.pins.selectsTick then 1 else 0) + Block.ticksIn n b.nextPins

/-- None of the next `n` steps is a RESET step or runs a raw word: TICK, HOLD and stand-alone uses only
(the premise of 41_sweep_accumulator.md section 3). -/
def Block.SweepsFor (n : Nat) (b : Block P) : Prop :=
  ∀ k < n, (b.pinsAt k).selectsReset = false ∧ ∀ w, (b.pinsAt k).drive ≠ .frame w

/-- `p = ceil(w / s)` (R117). -/
def period (s w : Nat) : Nat := (w + s - 1) / s

/-- The angle of tick `k` in closed form: `(k mod p) * s` (R117). -/
def sweepAngle (s w k : Nat) : Nat := k % period s w * s

/-- The frame for a whole number of degrees under a configuration. -/
def frameFor (P : Params) (c : Cfg P) (degrees : Nat) : CanFrame P.idW :=
  enc P.fracW (BitVec.ofNat P.angW (degrees * 2 ^ P.fracW)) c.speedLimit c.deviceId

/-- The pins the hardware has. -/
def Pins.ports (p : Pins P) : Pins P := { p with cfg := p.cfg.ports }

/-- The block without its records and without the tick interval. -/
def Block.seen (b : Block P) : Block P :=
  { cur := b.cur, pins := b.pins.ports, future := b.future.map Pins.ports, emitted := [], encoded := [] }

end Sys2Proof.Machine
end

