-- ==== Sys2Proof/Certificates/Slice0/Obligations.lean ====
section
/-!
DEFINITION. The statements for the provers. Each docstring names the rule it formalises; where a rule is
the spec's own decision (92_eei_decisions.md), its own derivation, or a choice of the model (log n), it says so.
-/

open Sys2Proof Sys2Proof.Machine

/-! ## The encoder's arithmetic -/

/-- R14, whole: `tdiv` is floor on non-negative dividends and minus the floor of the negated dividend on
negative ones; it is the rational quotient rounded toward zero; and it differs from floor, and for a power
of two from an arithmetic right shift, exactly when `p < 0` and `d` does not divide `p`, where floor is one
less. -/
def Obligations.DivisionRoundsTowardZero : Prop :=
  (∀ p d : Int, 0 < d →
    tdiv p d = (if 0 ≤ p then p / d else -(-p / d)) ∧
    tdiv p d = roundTowardZero ((p : ℚ) / (d : ℚ)) ∧
    (tdiv p d ≠ p / d ↔ p < 0 ∧ ¬ d ∣ p) ∧
    (tdiv p d ≠ p / d → p / d = tdiv p d - 1) ∧
    ∀ F : Nat, d = 2 ^ F → (tdiv p d ≠ p >>> F ↔ p < 0 ∧ ¬ d ∣ p)) ∧
  (∀ r : ℚ, roundTowardZero r = if 0 ≤ r then ⌊r⌋ else -⌊-r⌋) ∧
  tdiv 7 2 = 3 ∧ tdiv (-7) 2 = -3 ∧ tdiv (-1) 256 = 0

/-- R81: SCALE is `tdiv(A * 100, 2^F)` on the exact product. With `a = sint(enc_angle) / 2^F` degrees it is `round_toward_zero(a * 100)`: the
multiplication comes first, the truncation is of the product; with `F = 0` nothing is truncated; and
`|a| < 0.01` gives 0 for either sign. -/
def Obligations.ScaleTruncatesTheProduct : Prop :=
  ∀ (angW F : Nat) (angle : BitVec angW),
    scale F angle = Int.tdiv (angle.toInt * 100) (2 ^ F) ∧
    scale F angle = roundTowardZero ((angle.toInt : ℚ) / 2 ^ F * 100) ∧
    (F = 0 → scale F angle = angle.toInt * 100) ∧
    (|(angle.toInt : ℚ) / 2 ^ F| < 1 / 100 → scale F angle = 0)

/-- R82: `uint(angle32) = centi mod 2^32` for every `centi`, and `sint(angle32) = centi` when
`-2^31 <= centi <= 2^31 - 1`. -/
def Obligations.AngleWrapsToThirtyTwoBits : Prop :=
  ∀ centi : Int,
    ((wrap32 centi).toNat : Int) = centi % 2 ^ 32 ∧
    (-2 ^ 31 ≤ centi → centi ≤ 2 ^ 31 - 1 → (wrap32 centi).toInt = centi)

/-- R83: `uint(speed16) = S mod 2^16` with `S` the speed input read as an unsigned or as a signed integer;
inside `0 <= S <= 65535` it is `S`; with `SPD_W = 16` every input is in that domain. -/
def Obligations.SpeedKeepsItsLowSixteenBits : Prop :=
  (∀ (spdW : Nat) (S : BitVec spdW), 16 ≤ spdW →
    (speed16 S).toNat = S.toNat % 2 ^ 16 ∧
    ((speed16 S).toNat : Int) = S.toInt % 2 ^ 16 ∧
    (SpeedInRange S.toNat → (speed16 S).toNat = S.toNat) ∧
    (SpeedInRange S.toInt → ((speed16 S).toNat : Int) = S.toInt)) ∧
  ∀ S : BitVec 16, SpeedInRange S.toNat ∧ speed16 S = S

/-- R85 to R88: PACK places the eight bytes `A4 00 speed_low speed_high b0 b1 b2 b3`, least significant
byte of each field at the lower offset, and the identifier unchanged. -/
def Obligations.PackPlacesEveryByte : Prop :=
  ∀ (idW : Nat) (cmd : MotorCommand idW),
    (pack cmd).payload[0] = 0xA4#8 ∧
    (pack cmd).payload[1] = 0x00#8 ∧
    (pack cmd).payload[2].toNat = cmd.speed16.toNat % 256 ∧
    (pack cmd).payload[3].toNat = cmd.speed16.toNat / 256 ∧
    (pack cmd).payload[4].toNat = cmd.angle32.toNat % 256 ∧
    (pack cmd).payload[5].toNat = cmd.angle32.toNat / 256 % 256 ∧
    (pack cmd).payload[6].toNat = cmd.angle32.toNat / 256 ^ 2 % 256 ∧
    (pack cmd).payload[7].toNat = cmd.angle32.toNat / 256 ^ 3 ∧
    (pack cmd).arbId = cmd.id

/-- 30_encoding.md section 1 (R61 to R63, R66) on the block's own frame: in the flat payload, bits [7:0]
are `0xA4`, bits [15:8] are `0x00`, bits [31:16] are the low 16 bits of the speed port, bits [63:32] are
`angle32` of the angle the block presents, and `arb_id` is the device identifier unchanged. The bit
positions are those of the flat port, the spec's decision D4. -/
def Obligations.FrameFieldsStandAtTheirBits : Prop :=
  ∀ (P : Params) (b : Block P),
    b.payload.extractLsb' 0 8 = 0xA4#8 ∧
    b.payload.extractLsb' 8 8 = 0x00#8 ∧
    (b.payload.extractLsb' 16 16).toNat = b.pins.cfg.speedLimit.toNat % 2 ^ 16 ∧
    b.payload.extractLsb' 32 32 = wrap32 (scale P.fracW (buildAngle P.angW P.fracW b.cur)) ∧
    b.arbId = b.pins.cfg.deviceId

/-- 20_memory.md section 5 (the flat port image, decision D4): `payload[8i+7:8i]` is byte `i`, for `i` in
0..7, and the flat number of a packed command is `0xA4 + speed16 * 2^16 + angle32 * 2^32`. -/
def Obligations.FlatPortHoldsByteI : Prop :=
  (∀ (p : Payload) (i : Fin 8), (flat p).extractLsb' (8 * i.val) 8 = p[i]) ∧
  ∀ (idW : Nat) (cmd : MotorCommand idW),
    (flat (pack cmd).payload).toNat = 0xA4 + cmd.speed16.toNat * 2 ^ 16 + cmd.angle32.toNat * 2 ^ 32

/-- 20_memory.md section 2 (R41, R42): a reader of bytes 2 to 3 as a little-endian number sees the speed
field, of bytes 4 to 7 the angle field, and of bytes 2 to 7 `angle32 * 2^16 + speed16` (the last is the
spec's derivation). -/
def Obligations.FieldsAreLittleEndian : Prop :=
  ∀ (idW : Nat) (cmd : MotorCommand idW),
    let q : Nat → Nat := fun i => ((pack cmd).payload.toList.getD i 0#8).toNat
    q 2 + q 3 * 2 ^ 8 = cmd.speed16.toNat ∧
    q 4 + q 5 * 2 ^ 8 + q 6 * 2 ^ 16 + q 7 * 2 ^ 24 = cmd.angle32.toNat ∧
    q 2 + q 3 * 2 ^ 8 + q 4 * 2 ^ 16 + q 5 * 2 ^ 24 + q 6 * 2 ^ 32 + q 7 * 2 ^ 40 =
      cmd.angle32.toNat * 2 ^ 16 + cmd.speed16.toNat

/-- 40_frame_encoder.md section 6, ENCODE as one formula (the spec derives it from R81 to R88): for every
value of the three inputs, `arb_id = D` and the flat payload is
`0xA4 + (S mod 2^16) * 2^16 + (tdiv(A * 100, 2^F) mod 2^32) * 2^32`. -/
def Obligations.EncodeIsOneFormula : Prop :=
  ∀ (angW spdW idW F : Nat) (angle : BitVec angW) (speed : BitVec spdW) (id : BitVec idW),
    (enc F angle speed id).arbId = id ∧
    ((flat (enc F angle speed id).payload).toNat : Int) =
      0xA4 + (speed.toNat % 2 ^ 16 : Nat) * 2 ^ 16
        + Int.tdiv (angle.toInt * 100) (2 ^ F) % 2 ^ 32 * 2 ^ 32

/-- From 40_frame_encoder.md sections 2, 3 and 6: two encodings are the same frame exactly when the speeds
agree modulo `2^16`, the scaled angles agree modulo `2^32` and the identifiers are equal. So the two masks
are the only information lost, and the identifier and the fields do not influence one another. -/
def Obligations.EncodeMergesOnlyWhatTheMasksMerge : Prop :=
  ∀ (angW spdW idW F : Nat) (a a' : BitVec angW) (v v' : BitVec spdW) (i i' : BitVec idW),
    (enc F a v i = enc F a' v' i' ↔
      v.toNat % 2 ^ 16 = v'.toNat % 2 ^ 16 ∧
      scale F a % 2 ^ 32 = scale F a' % 2 ^ 32 ∧
      i = i')

/-- R92: DECODE of a frame ENC makes. `s' = S mod 2^16` and `c' = sint(bv_32(centi))` always; inside
`SpeedInRange` `s' = S`; inside `AngleInRange` `c' = tdiv(A * 100, 2^F)`; outside the predicates they differ
from the inputs; and `a' = c' / 100`. Only a payload with the operand's two constant bytes is read. -/
def Obligations.ReadingBackRecoversTheCommand : Prop :=
  (∀ (angW spdW idW F : Nat) (angle : BitVec angW) (speed : BitVec spdW) (id : BitVec idW),
    ∃ r, readBack (enc F angle speed id).payload = some r ∧
      r.speed = speed.toNat % 2 ^ 16 ∧
      r.centi = (BitVec.ofInt 32 (scale F angle)).toInt ∧
      r.degrees = (r.centi : ℚ) / 100 ∧
      (SpeedInRange speed.toNat → r.speed = speed.toNat) ∧
      (AngleInRange F angle.toInt → r.centi = Int.tdiv (angle.toInt * 100) (2 ^ F)) ∧
      (¬SpeedInRange speed.toNat → r.speed ≠ speed.toNat) ∧
      (¬AngleInRange F angle.toInt → r.centi ≠ Int.tdiv (angle.toInt * 100) (2 ^ F))) ∧
  ∀ p : Payload, readBack p = none ↔ ¬(p[0] = 0xA4#8 ∧ p[1] = 0x00#8)

/-- 40_frame_encoder.md section 7, the truncation error (the spec derives it): inside `AngleInRange`, with
`a = A / 2^F` and `a'` the angle read back, `0 <= a - a' < 0.01` for `a >= 0` and `-0.01 < a - a' <= 0` for
`a < 0`; `a'` is never further from zero than `a`; with `F = 0` the error is 0. -/
def Obligations.ReadBackErrorIsBelowOneCentidegree : Prop :=
  ∀ (angW spdW idW F : Nat) (angle : BitVec angW) (speed : BitVec spdW) (id : BitVec idW)
    (r : ReadBack),
    AngleInRange F angle.toInt → readBack (enc F angle speed id).payload = some r →
    let a : ℚ := (angle.toInt : ℚ) / 2 ^ F
    (0 ≤ a → 0 ≤ a - r.degrees ∧ a - r.degrees < 1 / 100) ∧
    (a < 0 → -(1 / 100) < a - r.degrees ∧ a - r.degrees ≤ 0) ∧
    |r.degrees| ≤ |a| ∧
    (F = 0 → r.degrees = a)

/-- 40_frame_encoder.md section 8 (the spec derives it): the biased arithmetic shift realises `tdiv`, on
unbounded integers, and on vectors of any width of at least `ANG_W + 8` bits it computes SCALE. -/
def Obligations.BiasedShiftRealisesTheDivision : Prop :=
  (∀ (p : Int) (F : Nat), tdivByShift p F = tdiv p (2 ^ F)) ∧
  ∀ (angW n F : Nat) (angle : BitVec angW), F < angW → angW + 8 ≤ n →
    (scaleByShift n F angle).toInt = scale F angle

/-- 40_frame_encoder.md section 8 (the spec derives it): with `F = 0` the angle field may be formed from the
low 32 bits of the angle, and its two lowest bits are 0 in every frame. -/
def Obligations.WholeDegreesUseTheLowBits : Prop :=
  ∀ (angW : Nat) (angle : BitVec angW),
    wrap32 (scale 0 angle) = angle32FromLowBits angle ∧
    (wrap32 (scale 0 angle)).extractLsb' 0 2 = 0#2

/-- 40_frame_encoder.md section 6 (the spec derives the numbers): for `F = 0`, `AngleInRange` is
`-21474836 <= A <= 21474836`. -/
def Obligations.WholeDegreeRangeIsTheSpecsRange : Prop :=
  ∀ A : Int, AngleInRange 0 A ↔ -21474836 ≤ A ∧ A ≤ 21474836

/-! ## What the accumulator gives the encoder -/

/-- R111: with `ANG_W >= CNT_W + F + 1`, the angle input has `sint(enc_angle) = uint(cur) * 2^F`, so SCALE
gives `uint(cur) * 100` exactly, whatever `F` is; the speed and the identifier are the configuration's. -/
def Obligations.BuildPresentsWholeDegrees : Prop :=
  ∀ (P : Params) (b : Block P), P.accLegal = true →
    (buildAngle P.angW P.fracW b.cur).toInt = (b.cur.toNat : Int) * 2 ^ P.fracW ∧
    scale P.fracW (buildAngle P.angW P.fracW b.cur) = (b.cur.toNat : Int) * 100 ∧
    b.portFrame = frameFor P b.pins.cfg b.cur.toNat ∧
    b.portFrame.payload[2].toNat = b.pins.cfg.speedLimit.toNat % 256 ∧
    b.portFrame.payload[3].toNat = b.pins.cfg.speedLimit.toNat / 256 % 256 ∧
    b.portFrame.arbId = b.pins.cfg.deviceId

/-- 41_sweep_accumulator.md section 3, no wrap of the angle field under ACC (the spec derives it): the
presented angle is in range exactly when `cur <= 21474836`; it always is when `CNT_W <= 24`; and it is
under the invariant when `w <= 21474837`. With `CNT_W <= 16` byte 7 of every frame is 0
(40_frame_encoder.md section 8). -/
def Obligations.SweepAngleFieldDoesNotWrap : Prop :=
  ∀ (P : Params) (b : Block P), P.accLegal = true →
    (AngleInRange P.fracW (buildAngle P.angW P.fracW b.cur).toInt ↔ b.cur.toNat ≤ 21474836) ∧
    (P.cntW ≤ 24 → AngleInRange P.fracW (buildAngle P.angW P.fracW b.cur).toInt) ∧
    (b.InRange → b.pins.cfg.wrapBound.toNat ≤ 21474837 →
      AngleInRange P.fracW (buildAngle P.angW P.fracW b.cur).toInt) ∧
    (P.cntW ≤ 16 → b.portFrame.payload[7] = 0x00#8)

/-- 10_state.md section 5 (outputs as functions of state; decisions D14, D17): in every cycle `cur_angle` is
`cur`, `arb_id` and `payload` are ENC of the current angle and configuration, here as numbers, and
`frame_valid` is `tick and not rst`. With `cur = 0` this is the reset table of 10_state.md section 7: bytes
`A4 00 sl sh 00 00 00 00`. -/
def Obligations.PortsShowTheCurrentAngle : Prop :=
  ∀ (P : Params) (b : Block P), P.accLegal = true →
    b.curAngle = b.cur ∧
    b.arbId = b.pins.cfg.deviceId ∧
    b.payload.toNat = 0xA4 + b.pins.cfg.speedLimit.toNat % 2 ^ 16 * 2 ^ 16
      + b.cur.toNat * 100 % 2 ^ 32 * 2 ^ 32 ∧
    (b.pins.drive = .control → b.frameValid = (b.pins.tick && !b.pins.rst))

/-! ## The advance -/

/-- 70_reset_and_hazards.md section 3 and 41_sweep_accumulator.md section 1 (decision D11): a sum formed and
compared at `CNT_W + 1` bits, or at any wider width, gives the exact advance. -/
def Obligations.OneMoreBitMakesTheAdderExact : Prop :=
  ∀ (cntW n : Nat) (cur stepSize wrapBound : BitVec cntW), cntW + 1 ≤ n →
    advanceAtWidth n cur stepSize wrapBound = advance cur stepSize wrapBound

/-- The companion of 70_reset_and_hazards.md R178 for a sum at `CNT_W` bits, made precise (log 18): from a
`cur` below the bound such an adder is wrong exactly when `cur + step > 2^CNT_W`; at `cur + step = 2^CNT_W`
it stores 0, as it should. -/
def Obligations.NarrowAdderIsWrongExactlyAboveTheRange : Prop :=
  ∀ (cntW : Nat) (cur stepSize wrapBound : BitVec cntW), cur.toNat < wrapBound.toNat →
    (advanceAtWidth cntW cur stepSize wrapBound ≠ advance cur stepSize wrapBound ↔
      2 ^ cntW < cur.toNat + stepSize.toNat)

/-- 90_conflicts.md C1: a modulo counter `(cur + step) mod bound` agrees with the advance exactly when the
sum stays below the bound or is a multiple of it. -/
def Obligations.AdvanceIsNoModuloCounter : Prop :=
  ∀ (cntW : Nat) (cur stepSize wrapBound : BitVec cntW), cur.toNat < wrapBound.toNat →
    ((advance cur stepSize wrapBound).toNat = (cur.toNat + stepSize.toNat) % wrapBound.toNat ↔
      cur.toNat + stepSize.toNat < wrapBound.toNat ∨ wrapBound.toNat ∣ cur.toNat + stepSize.toNat)

/-- 41_sweep_accumulator.md section 3, the monotonicity of the source and the spec's sharper derivation:
with `step >= 1` an advance is strictly upward, or it wraps, and then it stores 0. -/
def Obligations.AdvanceClimbsOrWrapsToZero : Prop :=
  ∀ (cntW : Nat) (cur stepSize wrapBound : BitVec cntW), 1 ≤ stepSize.toNat →
    (cur.toNat + stepSize.toNat < wrapBound.toNat ∧
      cur.toNat < (advance cur stepSize wrapBound).toNat) ∨
    (wrapBound.toNat ≤ cur.toNat + stepSize.toNat ∧ advance cur stepSize wrapBound = 0#cntW)

/-! ## Where each instruction completes, and what it leaves unchanged -/

/-- 41_sweep_accumulator.md section 1 (R110 to R115; the exact sum and the wrap to 0 are decisions D10 and
D11): TICK completes from every state of a block with legal parameters. The frame is that of the old `cur`;
then `cur` is 0 if `cur + step >= bound` and the sum otherwise. The pins, the environment's list and the
record of the stand-alone encoder are as before. -/
def Obligations.TickEmitsThenAdvances : Prop :=
  ∀ (P : Params) (b : Block P), P.accLegal = true →
    ∃ (b' : Block P) (f : CanFrame P.idW),
      exec .tick ⟨P, b⟩ = .next ⟨P, b'⟩ ∧
      b'.cur.toNat = (if b.pins.cfg.wrapBound.toNat ≤ b.cur.toNat + b.pins.cfg.stepSize.toNat then 0
        else b.cur.toNat + b.pins.cfg.stepSize.toNat) ∧
      b'.emitted = b.emitted ++ [f] ∧
      f.arbId = b.pins.cfg.deviceId ∧
      (flat f.payload).toNat = 0xA4 + b.pins.cfg.speedLimit.toNat % 2 ^ 16 * 2 ^ 16
        + b.cur.toNat * 100 % 2 ^ 32 * 2 ^ 32 ∧
      b'.pins = b.pins ∧ b'.future = b.future ∧ b'.encoded = b.encoded

/-- R115: the comparison is of the exact sum with the bound, after the addition; so a value equal to the
bound is never stored and never encoded: from a `cur` below the bound, TICK leaves a `cur` below the bound,
and its frame's angle reads back as `cur * 100` centidegrees, below the bound's. The premise
`w <= 21474837` keeps the angle field from wrapping; every legal `CNT_W <= 24` meets it. -/
def Obligations.BoundIsNeverStoredNorEncoded : Prop :=
  ∀ (P : Params) (b b' : Block P), P.accLegal = true → b.InRange →
    b.pins.cfg.wrapBound.toNat ≤ 21474837 → exec .tick ⟨P, b⟩ = .next ⟨P, b'⟩ →
    (b.pins.cfg.wrapBound.toNat ≤ b.cur.toNat + b.pins.cfg.stepSize.toNat → b'.cur.toNat = 0) ∧
    (b.cur.toNat + b.pins.cfg.stepSize.toNat < b.pins.cfg.wrapBound.toNat →
      b'.cur.toNat = b.cur.toNat + b.pins.cfg.stepSize.toNat) ∧
    b'.cur.toNat < b.pins.cfg.wrapBound.toNat ∧
    ∃ (f : CanFrame P.idW) (r : ReadBack), b'.emitted = b.emitted ++ [f] ∧
      readBack f.payload = some r ∧ r.centi = (b.cur.toNat : Int) * 100 ∧
      r.centi < (b.pins.cfg.wrapBound.toNat : Int) * 100

/-- 41_sweep_accumulator.md section 2 (HOLD, decision D3): HOLD completes from every state and changes
nothing: `cur` keeps its value and no frame leaves. -/
def Obligations.HoldChangesNothing : Prop :=
  ∀ s : State, exec .hold s = .next s

/-- R171: RESET completes from every state, whatever `tick` is: `cur` is 0, nothing else changes, no frame
leaves; a second RESET changes nothing more; it is the step `rst = 1` selects, and `frame_valid` is 0 in it. -/
def Obligations.ResetZeroesTheAngle : Prop :=
  (∀ (t t' : Bool) (P : Params) (b : Block P),
    ∃ b' : Block P, exec (.reset t) ⟨P, b⟩ = .next ⟨P, b'⟩ ∧ b'.cur.toNat = 0 ∧
      b'.emitted = b.emitted ∧ b'.encoded = b.encoded ∧ b'.pins = b.pins ∧ b'.future = b.future ∧
      exec (.reset t') ⟨P, b'⟩ = .next ⟨P, b'⟩) ∧
  ∀ (P : Params) (b : Block P), b.pins.drive = .control → b.pins.rst = true →
    b.frameValid = false ∧ step ⟨P, b⟩ = endOfStep (exec (.reset b.pins.tick) ⟨P, b⟩)

/-- POSCTL_SPD completes from every state, for every value of its two fields: the stand-alone encoder shows
the frame with these fields and the identifier of `enc_id` (40_frame_encoder.md sections 4 and 5; that the
meaning starts at the MotorCommand is the model's choice, log 21); `cur` and the port's record are as
before. -/
def Obligations.PosctlSpdOutputsItsFrame : Prop :=
  ∀ (speed : BitVec 16) (angle : BitVec 32) (P : Params) (b : Block P),
    ∃ (b' : Block P) (f : CanFrame P.idW),
      exec (.posctlSpd speed angle) ⟨P, b⟩ = .next ⟨P, b'⟩ ∧
      b'.encoded = b.encoded ++ [f] ∧
      f.arbId = b.pins.encId ∧
      (flat f.payload).toNat = 0xA4 + speed.toNat * 2 ^ 16 + angle.toNat * 2 ^ 32 ∧
      b'.cur = b.cur ∧ b'.emitted = b.emitted ∧ b'.pins = b.pins ∧ b'.future = b.future

/-- The frame of all four instructions at once (10_state.md section 1: one register, written by TICK and
RESET only; 20_memory.md section 6: frames only in TICK steps): whatever the instruction, the parameters,
the pins and the environment's list are as before; `cur` changes only under TICK and RESET; the port's
record only under TICK; the stand-alone encoder's record only under POSCTL_SPD. -/
def Obligations.InstructionsChangeOnlyTheirOwn : Prop :=
  ∀ (i : Instr) (P : Params) (b : Block P) (t : State), exec i ⟨P, b⟩ = .next t →
    ∃ b' : Block P, t = ⟨P, b'⟩ ∧
      b'.pins = b.pins ∧ b'.future = b.future ∧
      (i ≠ .tick → b'.emitted = b.emitted) ∧
      (i ≠ .tick → (∀ r, i ≠ .reset r) → b'.cur = b.cur) ∧
      ((∀ v a, i ≠ .posctlSpd v a) → b'.encoded = b.encoded)

/-! ## The step -/

/-- A step runs the decoded instruction: when the step's word decodes to `i`, the step is `exec` of `i`, and
on its next state the environment's next pins are taken: the head of its list, or, when the list has ended,
the same pins with both control pins low (log 3). -/
def Obligations.StepRunsTheDecodedInstruction : Prop :=
  ∀ (P : Params) (b : Block P) (i : Instr), decode b.fetch = .ok i →
    step ⟨P, b⟩ = endOfStep (exec i ⟨P, b⟩) ∧
    ∀ b' : Block P, exec i ⟨P, b⟩ = .next ⟨P, b'⟩ →
      (b'.future = [] → step ⟨P, b⟩ = .next ⟨P, { b' with pins :=
        { b'.pins with drive := .control, rst := false, tick := false } }⟩) ∧
      ∀ p rest, b'.future = p :: rest → step ⟨P, b⟩ = .next ⟨P, { b' with pins := p, future := rest }⟩

/-- 30_encoding.md section 4 (control-input decode; decisions D2, D3): the decode is total, and reset wins
over tick. -/
def Obligations.ControlPinsSelectTheStep : Prop :=
  ∀ (P : Params) (b : Block P), b.pins.drive = .control →
    (b.pins.rst = true → step ⟨P, b⟩ = endOfStep (exec (.reset b.pins.tick) ⟨P, b⟩)) ∧
    (b.pins.rst = false → b.pins.tick = true → step ⟨P, b⟩ = endOfStep (exec .tick ⟨P, b⟩)) ∧
    (b.pins.rst = false → b.pins.tick = false → step ⟨P, b⟩ = endOfStep (exec .hold ⟨P, b⟩))

/-- R150: for everything that stands on the hardware's pins the step answers a next state, and in a TICK
step a frame. No parameter, register value, configuration or input stops the block. (A raw word, which is
on no pin, is the one thing a step can refuse: log 6.) No step at all faults. -/
def Obligations.NothingOnThePinsStopsTheBlock : Prop :=
  (∀ (P : Params) (b : Block P), (∀ w, b.pins.drive ≠ .frame w) →
    ∃ b' : Block P, step ⟨P, b⟩ = .next ⟨P, b'⟩ ∧
      (b.pins.selectsTick = true → ∃ f, b'.emitted = b.emitted ++ [f])) ∧
  ∀ (s : State) (r : Fault), step s ≠ .fault r

/-- 20_memory.md section 6, 41_sweep_accumulator.md section 1 and 42_dispatch.md R141 (decision D4): exactly
one frame per TICK step, the one the port shows in that step with `frame_valid = 1`, which is ENC of the
current angle, and none in any other step, where `frame_valid = 0`; earlier frames stay as they are. That
`frame_valid` is 0 also in a step that is no clock cycle of the block, whatever `rst` and `tick` are, is the
model's choice (log 5). -/
def Obligations.FramesLeaveOnlyInTickSteps : Prop :=
  ∀ (P : Params) (b b' : Block P), step ⟨P, b⟩ = .next ⟨P, b'⟩ →
    (b.pins.drive = .control → b.pins.rst = false → b.pins.tick = true →
      b.frameValid = true ∧
      ∃ f, b'.emitted = b.emitted ++ [f] ∧ f.arbId = b.arbId ∧ flat f.payload = b.payload ∧
        f = frameFor P b.pins.cfg b.cur.toNat) ∧
    (¬(b.pins.drive = .control ∧ b.pins.rst = false ∧ b.pins.tick = true) →
      b.frameValid = false ∧ b'.emitted = b.emitted)

/-- 60_exceptions.md section 2 (priority; decision D2): a cycle with `rst` and `tick` both high is a RESET
step: no frame, `frame_valid = 0`, no advance, `cur` is 0. -/
def Obligations.ResetWinsOverTick : Prop :=
  ∀ (P : Params) (b : Block P),
    b.pins.drive = .control → b.pins.rst = true → b.pins.tick = true →
    b.frameValid = false ∧
    ∃ b' : Block P, step ⟨P, b⟩ = .next ⟨P, b'⟩ ∧ b'.cur.toNat = 0 ∧ b'.emitted = b.emitted

/-- 40_frame_encoder.md sections 1 and 6 on the stand-alone encoder (decisions D7 and D18): a use of it
completes for every value of its three pins, shows the frame of the closed formula, and does not disturb
`cur` or the port (R90). -/
def Obligations.StandAloneEncoderOutputsEncode : Prop :=
  ∀ (P : Params) (b : Block P), b.pins.drive = .encoder →
    ∃ (b' : Block P) (f : CanFrame P.idW),
      step ⟨P, b⟩ = .next ⟨P, b'⟩ ∧
      b'.encoded = b.encoded ++ [f] ∧
      f.arbId = b.pins.encId ∧
      ((flat f.payload).toNat : Int) = 0xA4 + (b.pins.encSpeed.toNat % 2 ^ 16 : Nat) * 2 ^ 16
        + Int.tdiv (b.pins.encAngle.toInt * 100) (2 ^ P.fracW) % 2 ^ 32 * 2 ^ 32 ∧
      f.arbId = b.encArbId ∧ flat f.payload = b.encPayload ∧
      b'.cur = b.cur ∧ b'.emitted = b.emitted

/-- A raw word (the model's own input, log 6): it runs exactly when it has the FRAME8 pattern, and it is
refused otherwise, as 30_encoding.md section 5 asks of a receiver; a frame that runs comes out unchanged. -/
def Obligations.RawWordRunsExactlyWhenItIsAFrame : Prop :=
  ∀ (P : Params) (b : Block P) (w : Flat), b.pins.drive = .frame w →
    (w &&& 0x000000000000FFFF#64 = 0x00000000000000A4#64 →
      ∃ (b' : Block P) (f : CanFrame P.idW), step ⟨P, b⟩ = .next ⟨P, b'⟩ ∧
        b'.encoded = b.encoded ++ [f] ∧ flat f.payload = w ∧ f.arbId = b.pins.encId ∧
        b'.cur = b.cur ∧ b'.emitted = b.emitted) ∧
    (w &&& 0x000000000000FFFF#64 ≠ 0x00000000000000A4#64 →
      ∃ e, step ⟨P, b⟩ = .refused (.notAFrame e))

/-- The placed word is the one the very next step runs (the model's choice, log 8), for every word of the
table's two formats that the decoder accepts. -/
def Obligations.PlacedWordRunsNext : Prop :=
  ∀ (s : State) (nbits w : Nat) (i : Instr),
    (nbits = 8 ∧ w < 4) ∨ (nbits = 64 ∧ w < 2 ^ 64) →
    decodeTableWord nbits w = some i →
    step (s.withFetchWord nbits w) = endOfStep (exec i (s.withFetchWord nbits w)) ∧
    (s.withFetchWord nbits w).block.cur.toNat = s.block.cur.toNat

/-! ## Encoding -/

/-- Decode and encode agree, in both directions and on every list of bytes: a list of bytes decodes to an
instruction exactly when it is that instruction's encoding (30_encoding.md sections 1, 3, 4; the byte form
of a CTRL word is the model's, log 7). -/
def Obligations.DecodeExactlyInvertsEncode : Prop :=
  ∀ (bytes : List Byte) (i : Instr), decode bytes = .ok i ↔ bytes = encode i

/-- 30_encoding.md section 3: a 64-bit word is a FRAME8 frame exactly when
`w & 0x000000000000FFFF = 0x00000000000000A4`, and then its fields are bits [31:16] and [63:32]; every
setting of the 16 `s` bits is produced by some speed input; with `F = 0` not every setting of the `a` bits
is (flat bit positions: decision D4). -/
def Obligations.FramePatternIsTheTablesMaskAndMatch : Prop :=
  (∀ w : Flat,
    (w &&& 0x000000000000FFFF#64 = 0x00000000000000A4#64 →
      decode (wordBytes 8 w.toNat) = .ok (.posctlSpd (w.extractLsb' 16 16) (w.extractLsb' 32 32))) ∧
    (w &&& 0x000000000000FFFF#64 ≠ 0x00000000000000A4#64 →
      ∃ e, decode (wordBytes 8 w.toNat) = .error e)) ∧
  (∀ (spdW : Nat) (v : BitVec 16), 16 ≤ spdW → ∃ S : BitVec spdW, speed16 S = v) ∧
  ∃ a : BitVec 32, ∀ (angW : Nat) (angle : BitVec angW), wrap32 (scale 0 angle) ≠ a

/-- A sanity statement on words written out from 30_encoding.md sections 3 and 4 and the vectors S1, E84, E85,
K1 to K4 of 95_test_vectors.md. -/
def Obligations.KnownWordsDecodeAsTheSpecSays : Prop :=
  decode [0xA4#8, 0x00#8, 0xF4#8, 0x01#8, 0x28#8, 0x23#8, 0x00#8, 0x00#8] =
    .ok (.posctlSpd 500#16 9000#32) ∧
  decode [0xA5#8, 0x00#8, 0xF4#8, 0x01#8, 0x28#8, 0x23#8, 0x00#8, 0x00#8] = .error .badOpcode ∧
  decode [0xA4#8, 0x01#8, 0xF4#8, 0x01#8, 0x28#8, 0x23#8, 0x00#8, 0x00#8] = .error .badReserved ∧
  decode [0b00000000#8] = .ok .hold ∧
  decode [0b00000001#8] = .ok .tick ∧
  decode [0b00000010#8] = .ok (.reset false) ∧
  decode [0b00000011#8] = .ok (.reset true)

/-! ## Invariants -/

/-- 10_state.md section 6 (the spec derives it): with a constant configuration, `0 <= cur < wrap_bound` is
kept by every step that goes on. It is stated of every state, not of runs from reset. -/
def Obligations.EveryStepKeepsTheAngleInRange : Prop :=
  ∀ s s' : State, s.Inv → step s = .next s' → s'.Inv

/-- The state after reset meets that invariant (the bound there is the source's default 360). -/
def Obligations.ResetStateMeetsTheAngleRange : Prop := State.reset.Inv

/-- The state after reset holds the values the spec gives (10_state.md section 7; defaults of 00_scope.md
section 4 and 10_state.md section 3): `cur = 0`, speed 500, step 1, bound 360, interval 1/10 s, and the five
parameters' defaults; no frame has left. The identifier (log 10) and the other pins (log 11) are the
model's choices and are not stated. -/
def Obligations.ResetStateHoldsTheSpecsValues : Prop :=
  State.reset.params = { cntW := 16, angW := 32, fracW := 0, spdW := 16, idW := 11 } ∧
  State.reset.params.accLegal = true ∧
  State.reset.block.cur.toNat = 0 ∧
  State.reset.block.pins.cfg.speedLimit.toNat = 500 ∧
  State.reset.block.pins.cfg.stepSize.toNat = 1 ∧
  State.reset.block.pins.cfg.wrapBound.toNat = 360 ∧
  State.reset.block.pins.cfg.tickInterval = { num := 1, den := 10 } ∧
  State.reset.block.emitted = []

/-- R62, R63: byte 0 of every frame is `0xA4` and byte 1 is `0x00`; no step adds any other frame to what has
left the port or the stand-alone encoder. -/
def Obligations.EveryFrameHasTheConstantBytes : Prop :=
  ∀ (P : Params) (b b' : Block P), step ⟨P, b⟩ = .next ⟨P, b'⟩ →
    (∀ f ∈ b.emitted ++ b.encoded, f.payload[0] = 0xA4#8 ∧ f.payload[1] = 0x00#8) →
    ∀ f ∈ b'.emitted ++ b'.encoded, f.payload[0] = 0xA4#8 ∧ f.payload[1] = 0x00#8

/-! ## Runs -/

/-- 41_sweep_accumulator.md section 3, the closed form (the spec derives it). From `cur = 0`, with
a constant configuration with `s >= 1` and `w >= 1`, through any mixture of TICK, HOLD and
stand-alone encoder steps, every run completes; tick `k` of it emits exactly the frame for
`(k mod ceil(w/s)) * s` degrees, nothing else leaves the port, and `cur` is the next value of the sequence. -/
def Obligations.SweepFollowsTheClosedForm : Prop :=
  ∀ (P : Params) (b : Block P) (n : Nat),
    b.cur.toNat = 0 → b.ConstantCfg → b.SweepsFor n →
    1 ≤ b.pins.cfg.stepSize.toNat → 1 ≤ b.pins.cfg.wrapBound.toNat →
    ∃ b' : Block P, run n ⟨P, b⟩ = .next ⟨P, b'⟩ ∧
      b'.cur.toNat =
        sweepAngle b.pins.cfg.stepSize.toNat b.pins.cfg.wrapBound.toNat (b.ticksIn n) ∧
      b'.emitted = b.emitted ++ (List.range (b.ticksIn n)).map fun k =>
        frameFor P b.pins.cfg
          (sweepAngle b.pins.cfg.stepSize.toNat b.pins.cfg.wrapBound.toNat k)

/-- 41_sweep_accumulator.md section 3, the closed form as a step (the spec derives it): with a constant
configuration, `s >= 1` and `w >= 1`, from any state whose angle is `(k mod p) * s` every step that goes on
leaves the same configuration, still constant, and the angle `((k + 1) mod p) * s` after TICK, 0 after RESET
and the same angle after any other step. It is stated of every such state, not of runs from reset. -/
def Obligations.EveryStepMovesAlongTheSweep : Prop :=
  ∀ (P : Params) (b b' : Block P) (k : Nat),
    b.ConstantCfg → 1 ≤ b.pins.cfg.stepSize.toNat → 1 ≤ b.pins.cfg.wrapBound.toNat →
    b.cur.toNat = sweepAngle b.pins.cfg.stepSize.toNat b.pins.cfg.wrapBound.toNat k →
    step ⟨P, b⟩ = .next ⟨P, b'⟩ →
    b'.ConstantCfg ∧ b'.pins.cfg = b.pins.cfg ∧
    b'.cur.toNat = sweepAngle b.pins.cfg.stepSize.toNat b.pins.cfg.wrapBound.toNat
      (if b.pins.selectsTick then k + 1 else if b.pins.selectsReset then 0 else k)

/-- 41_sweep_accumulator.md section 3, the period: the angles of repeated advances from 0 repeat after
`p = ceil(w/s)` ticks; all lie below `w`; the largest is `(p - 1) * s`, reached at tick `p - 1`, and the next
multiple is at least `w`. -/
def Obligations.SweepIsPeriodic : Prop :=
  ∀ (cntW : Nat) (s w : BitVec cntW), 1 ≤ s.toNat → 1 ≤ w.toNat →
    let angle : Nat → Nat := fun k => ((fun c => advance c s w)^[k] 0#cntW).toNat
    let p := (w.toNat + s.toNat - 1) / s.toNat
    1 ≤ p ∧
    (∀ k, angle (k + p) = angle k) ∧
    (∀ k, angle k ≤ (p - 1) * s.toNat) ∧
    angle (p - 1) = (p - 1) * s.toNat ∧
    (p - 1) * s.toNat < w.toNat ∧ w.toNat ≤ p * s.toNat

/-- 41_sweep_accumulator.md section 3, zero step, step not below the bound, zero bound (the spec derives the
first two; the third is decision D9, log 13): from `cur = 0` with a constant configuration, whatever the
steps are, the angle stays 0 and every frame that leaves is the frame for 0 degrees. -/
def Obligations.DegenerateStepsStayAtZero : Prop :=
  ∀ (P : Params) (b b' : Block P) (n : Nat),
    b.cur.toNat = 0 → b.ConstantCfg →
    (b.pins.cfg.stepSize.toNat = 0 ∨
      b.pins.cfg.wrapBound.toNat ≤ b.pins.cfg.stepSize.toNat) →
    run n ⟨P, b⟩ = .next ⟨P, b'⟩ →
    b'.cur.toNat = 0 ∧
    ∃ k, b'.emitted = b.emitted ++ List.replicate k (frameFor P b.pins.cfg 0)

/-- 20_memory.md section 6 over whole runs (R48, R49): what has left the port is never changed, and a run of
`n` steps adds exactly as many frames as it has TICK steps. -/
def Obligations.RunsAddOneFramePerTick : Prop :=
  ∀ (P : Params) (b b' : Block P) (n : Nat), run n ⟨P, b⟩ = .next ⟨P, b'⟩ →
    ∃ new, b'.emitted = b.emitted ++ new ∧ new.length = b.ticksIn n

/-- 42_dispatch.md (cancellation, decision D12; the environment's list has ended, log 3): when ticks cease,
no frame follows, none is cut short, and `cur` keeps its value for ever: the whole state stays as it is. -/
def Obligations.CeasingTicksFreezesTheBlock : Prop :=
  ∀ (P : Params) (b : Block P) (n : Nat),
    b.pins.drive = .control → b.pins.rst = false → b.pins.tick = false → b.future = [] →
    run n ⟨P, b⟩ = .next ⟨P, b⟩

/-- 42_dispatch.md (start, decision D2) and 70_reset_and_hazards.md section 1 (the first tick, derived): from
any state, a RESET step and then a TICK step emit exactly one frame, the frame for angle 0:
`A4 00 sl sh 00 00 00 00` under the configuration of the TICK step. -/
def Obligations.StartEmitsTheFrameForZero : Prop :=
  ∀ (P : Params) (b : Block P) (p : Pins P) (rest : List (Pins P)), P.accLegal = true →
    b.pins.drive = .control → b.pins.rst = true → b.future = p :: rest →
    p.drive = .control → p.rst = false → p.tick = true →
    ∃ (b' : Block P) (f : CanFrame P.idW), run 2 ⟨P, b⟩ = .next ⟨P, b'⟩ ∧
      b'.emitted = b.emitted ++ [f] ∧ f.arbId = p.cfg.deviceId ∧
      (flat f.payload).toNat = 0xA4 + p.cfg.speedLimit.toNat % 2 ^ 16 * 2 ^ 16

/-- 60_exceptions.md section 3 (no nesting): `rst` held for several cycles has the same effect as one: `cur`
is 0 and nothing has left, from any state. -/
def Obligations.SeveralResetsEqualOne : Prop :=
  ∀ (P : Params) (b : Block P) (n : Nat), 1 ≤ n →
    (∀ k < n, (b.pinsAt k).drive = .control ∧ (b.pinsAt k).rst = true) →
    ∃ b' : Block P, run n ⟨P, b⟩ = .next ⟨P, b'⟩ ∧ b'.cur.toNat = 0 ∧
      b'.emitted = b.emitted ∧ b'.encoded = b.encoded

/-- 10_state.md section 2 (no hidden state), 42_dispatch.md (the result of a dispatch is not observed), R30:
the records of what has left and the tick interval do not influence a step: from two blocks that agree in
everything else, the steps agree in everything else and add the same frames. -/
def Obligations.RecordsAndIntervalAreNeverRead : Prop :=
  ∀ (P : Params) (a b : Block P), a.seen = b.seen →
    (∀ r, step ⟨P, a⟩ = .refused r → step ⟨P, b⟩ = .refused r) ∧
    ∀ a' : Block P, step ⟨P, a⟩ = .next ⟨P, a'⟩ →
      ∃ (b' : Block P) (x y : List (CanFrame P.idW)), step ⟨P, b⟩ = .next ⟨P, b'⟩ ∧
        a'.seen = b'.seen ∧
        a'.emitted = a.emitted ++ x ∧ b'.emitted = b.emitted ++ x ∧
        a'.encoded = a.encoded ++ y ∧ b'.encoded = b.encoded ++ y

/-- 10_state.md section 3 (stability) and 70_reset_and_hazards.md section 3 (decision D5): a step uses the
configuration of its own cycle. If the bound has been lowered to `cur` or below, `cur` keeps its value
until the next TICK or RESET step, and a TICK stores 0. -/
def Obligations.LoweredBoundActsAtTheNextTick : Prop :=
  ∀ (P : Params) (b b' : Block P), b.pins.cfg.wrapBound.toNat ≤ b.cur.toNat →
    step ⟨P, b⟩ = .next ⟨P, b'⟩ →
    (b.pins.selectsTick = true → b'.cur.toNat = 0) ∧
    (b.pins.selectsTick = false → b.pins.selectsReset = false → b'.cur = b.cur)
end

