-- ==== Sys2Proof/Laws/State.lean ====
section
/-!
SUPPORT. One lemma per field per update of Block and of State.
-/

namespace Sys2Proof.Machine

variable {P : Params}

section SetCur
variable (b : Block P) (v : BitVec P.cntW)
@[simp] theorem Block.setCur_cur : (b.setCur v).cur = v := rfl
@[simp] theorem Block.setCur_pins : (b.setCur v).pins = b.pins := rfl
@[simp] theorem Block.setCur_future : (b.setCur v).future = b.future := rfl
@[simp] theorem Block.setCur_emitted : (b.setCur v).emitted = b.emitted := rfl
@[simp] theorem Block.setCur_encoded : (b.setCur v).encoded = b.encoded := rfl
end SetCur

section Emit
variable (b : Block P) (f : CanFrame P.idW)
@[simp] theorem Block.emit_cur : (b.emit f).cur = b.cur := rfl
@[simp] theorem Block.emit_pins : (b.emit f).pins = b.pins := rfl
@[simp] theorem Block.emit_future : (b.emit f).future = b.future := rfl
@[simp] theorem Block.emit_emitted : (b.emit f).emitted = b.emitted ++ [f] := rfl
@[simp] theorem Block.emit_encoded : (b.emit f).encoded = b.encoded := rfl
@[simp] theorem Block.output_cur : (b.output f).cur = b.cur := rfl
@[simp] theorem Block.output_pins : (b.output f).pins = b.pins := rfl
@[simp] theorem Block.output_future : (b.output f).future = b.future := rfl
@[simp] theorem Block.output_emitted : (b.output f).emitted = b.emitted := rfl
@[simp] theorem Block.output_encoded : (b.output f).encoded = b.encoded ++ [f] := rfl
end Emit

section Idle
variable (p : Pins P)
@[simp] theorem Pins.idle_drive : p.idle.drive = .control := rfl
@[simp] theorem Pins.idle_rst : p.idle.rst = false := rfl
@[simp] theorem Pins.idle_tick : p.idle.tick = false := rfl
@[simp] theorem Pins.idle_cfg : p.idle.cfg = p.cfg := rfl
@[simp] theorem Pins.idle_encAngle : p.idle.encAngle = p.encAngle := rfl
@[simp] theorem Pins.idle_encSpeed : p.idle.encSpeed = p.encSpeed := rfl
@[simp] theorem Pins.idle_encId : p.idle.encId = p.encId := rfl
end Idle

section NextPins
variable (b : Block P)

theorem Block.nextPins_of_nil (h : b.future = []) : b.nextPins = { b with pins := b.pins.idle } := by
  simp [Block.nextPins, h]

theorem Block.nextPins_of_cons {p : Pins P} {rest : List (Pins P)} (h : b.future = p :: rest) :
    b.nextPins = { b with pins := p, future := rest } := by
  simp [Block.nextPins, h]

@[simp] theorem Block.nextPins_cur : b.nextPins.cur = b.cur := by
  unfold Block.nextPins; split <;> rfl
@[simp] theorem Block.nextPins_emitted : b.nextPins.emitted = b.emitted := by
  unfold Block.nextPins; split <;> rfl
@[simp] theorem Block.nextPins_encoded : b.nextPins.encoded = b.encoded := by
  unfold Block.nextPins; split <;> rfl
@[simp] theorem Block.nextPins_future : b.nextPins.future = b.future.tail := by
  unfold Block.nextPins; split <;> simp_all
@[simp] theorem Block.nextPins_pins : b.nextPins.pins = b.future.headD b.pins.idle := by
  unfold Block.nextPins; split <;> simp_all
end NextPins

section WithWord
variable (b : Block P) (nbits w : Nat)
@[simp] theorem Block.withWord_cur : (b.withWord nbits w).cur = b.cur := by
  unfold Block.withWord; split <;> rfl
@[simp] theorem Block.withWord_future : (b.withWord nbits w).future = b.future := by
  unfold Block.withWord; split <;> rfl
@[simp] theorem Block.withWord_emitted : (b.withWord nbits w).emitted = b.emitted := by
  unfold Block.withWord; split <;> rfl
@[simp] theorem Block.withWord_encoded : (b.withWord nbits w).encoded = b.encoded := by
  unfold Block.withWord; split <;> rfl
@[simp] theorem Block.withWord_cfg : (b.withWord nbits w).pins.cfg = b.pins.cfg := by
  unfold Block.withWord; split <;> rfl
end WithWord

section Update
variable (s : State) (f : Block s.params → Block s.params)
@[simp] theorem State.update_params : (s.update f).params = s.params := rfl
@[simp] theorem State.update_block : (s.update f).block = f s.block := rfl
end Update

theorem State.update_mk (b : Block P) (f : Block P → Block P) :
    State.update ⟨P, b⟩ f = ⟨P, f b⟩ := rfl

end Sys2Proof.Machine
end

