-- ==== Sys2Proof/Laws/Ops.lean ====
section
/-!
SUPPORT. One lemma per shared operation, saying once what it does: the bytes PACK places, the value
ADVANCE stores, the word a step fetches, the ports.
-/

namespace Sys2Proof.Machine

section Pack
variable {idW : Nat} (cmd : MotorCommand idW)
@[simp] theorem pack_arbId : (pack cmd).arbId = cmd.id := rfl
@[simp] theorem pack_payload_0 : (pack cmd).payload[0] = 0xA4#8 := rfl
@[simp] theorem pack_payload_1 : (pack cmd).payload[1] = 0x00#8 := rfl
@[simp] theorem pack_payload_2 : (pack cmd).payload[2] = speedLow cmd.speed16 := rfl
@[simp] theorem pack_payload_3 : (pack cmd).payload[3] = speedHigh cmd.speed16 := rfl
@[simp] theorem pack_payload_4 : (pack cmd).payload[4] = angleByte cmd.angle32 0 := rfl
@[simp] theorem pack_payload_5 : (pack cmd).payload[5] = angleByte cmd.angle32 1 := rfl
@[simp] theorem pack_payload_6 : (pack cmd).payload[6] = angleByte cmd.angle32 2 := rfl
@[simp] theorem pack_payload_7 : (pack cmd).payload[7] = angleByte cmd.angle32 3 := rfl
end Pack

section Encode
variable {angW spdW idW : Nat} (F : Nat) (angle : BitVec angW) (speed : BitVec spdW) (id : BitVec idW)
@[simp] theorem normalise_angle32 : (normalise F angle speed id).angle32 = wrap32 (scale F angle) := rfl
@[simp] theorem normalise_speed16 : (normalise F angle speed id).speed16 = speed16 speed := rfl
@[simp] theorem normalise_id : (normalise F angle speed id).id = id := rfl

theorem enc_eq_pack : enc F angle speed id = pack (normalise F angle speed id) := rfl
end Encode

section Bytes

/-- The two bytes of a 16-bit word put together again (20_memory.md R41). -/
theorem speed_of_bytes (s : BitVec 16) : speedHigh s ++ speedLow s = s := by
  apply BitVec.eq_of_getLsbD_eq
  intro i hi
  simp only [speedHigh, speedLow, BitVec.getLsbD_append, BitVec.getLsbD_extractLsb']
  by_cases h : i < 8
  · simp [h]
  · have h' : i - 8 < 8 := by omega
    have h'' : 8 + (i - 8) = i := by omega
    simp [h, h', h'']

/-- The four bytes of a 32-bit word put together again (20_memory.md R42). -/
theorem angle_of_bytes (a : BitVec 32) :
    angleByte a 3 ++ angleByte a 2 ++ angleByte a 1 ++ angleByte a 0 = a := by
  apply BitVec.eq_of_getLsbD_eq
  intro i hi
  simp only [angleByte, BitVec.getLsbD_append, BitVec.getLsbD_extractLsb']
  by_cases h0 : i < 8
  · simp [h0]
  · by_cases h1 : i - 8 < 8
    · have e : 8 * 1 + (i - 8) = i := by omega
      simp [h0, h1, e]
    · by_cases h2 : i - 8 - 8 < 8
      · have e : 8 * 2 + (i - 8 - 8) = i := by omega
        simp [h0, h1, h2, e]
      · have h3 : i - 8 - 8 - 8 < 8 := by omega
        have e : 8 * 3 + (i - 8 - 8 - 8) = i := by omega
        simp [h0, h1, h2, h3, e]

/-- The flat image of a packed command, field by field (20_memory.md R46). -/
theorem flat_pack {idW : Nat} (cmd : MotorCommand idW) :
    flat (pack cmd).payload =
      (cmd.angle32 ++ cmd.speed16 ++ 0x00#8 ++ 0xA4#8 : BitVec (32 + 16 + 8 + 8)) := by
  obtain ⟨a, s, id⟩ := cmd
  apply BitVec.eq_of_getLsbD_eq
  intro i hi
  conv_rhs => rw [← speed_of_bytes s, ← angle_of_bytes a]
  simp only [flat, pack_payload_0, pack_payload_1, pack_payload_2, pack_payload_3, pack_payload_4,
    pack_payload_5, pack_payload_6, pack_payload_7, BitVec.getLsbD_append]
  by_cases h0 : i < 8 <;> by_cases h1 : i - 8 < 8 <;> by_cases h2 : i - 8 - 8 < 8 <;>
    by_cases h3 : i - 8 - 8 - 8 < 8 <;> simp [h0, h1, h2, h3] <;> grind

end Bytes

section Words

/-- Byte `j` of the number a 64-bit word is. -/
theorem ofNat_div_toNat (w : Flat) (j : Nat) :
    BitVec.ofNat 8 (w.toNat / 2 ^ (8 * j)) = byteOf w j := by
  apply BitVec.eq_of_toNat_eq
  simp [byteOf, BitVec.extractLsb'_toNat, Nat.shiftRight_eq_div_pow]

/-- The eight bytes of a 64-bit word, the first from bits [7:0] (spec/opcode_table.json). -/
theorem wordBytes_flat (w : Flat) :
    wordBytes 8 w.toNat = [byteOf w 0, byteOf w 1, byteOf w 2, byteOf w 3,
      byteOf w 4, byteOf w 5, byteOf w 6, byteOf w 7] := by
  simp only [wordBytes, Nat.div_div_eq_div_mul, ← ofNat_div_toNat]
  norm_num

/-- What the decoder makes of a 64-bit word (30_encoding.md R61, R67). -/
theorem decode_wordBytes (w : Flat) :
    decode (wordBytes 8 w.toNat) =
      if byteOf w 0 ≠ 0xA4#8 then .error .badOpcode
      else if byteOf w 1 ≠ 0x00#8 then .error .badReserved
      else .ok (.posctlSpd (w.extractLsb' 16 16) (w.extractLsb' 32 32)) := by
  have hs : byteOf w 3 ++ byteOf w 2 = w.extractLsb' 16 16 := by
    apply BitVec.eq_of_getLsbD_eq
    intro i hi
    simp only [byteOf, BitVec.getLsbD_append, BitVec.getLsbD_extractLsb']
    by_cases h : i < 8 <;> simp [h] <;> grind
  have ha : byteOf w 7 ++ byteOf w 6 ++ byteOf w 5 ++ byteOf w 4 = w.extractLsb' 32 32 := by
    apply BitVec.eq_of_getLsbD_eq
    intro i hi
    simp only [byteOf, BitVec.getLsbD_append, BitVec.getLsbD_extractLsb']
    by_cases h0 : i < 8 <;> by_cases h1 : i - 8 < 8 <;> by_cases h2 : i - 8 - 8 < 8 <;>
      simp [h0, h1, h2] <;> grind
  rw [wordBytes_flat]
  simp only [decode, decodeFrame8]
  rw [ha]
  exact congrArg (fun s => if byteOf w 0 ≠ 0xA4#8 then Except.error DecodeError.badOpcode
    else if byteOf w 1 ≠ 0x00#8 then Except.error DecodeError.badReserved
    else Except.ok (Instr.posctlSpd s (w.extractLsb' 32 32))) hs

end Words

section Advance
variable {cntW : Nat} (cur stepSize wrapBound : BitVec cntW)

theorem sumReachesBound_iff :
    sumReachesBound cur stepSize wrapBound = true ↔ wrapBound.toNat ≤ cur.toNat + stepSize.toNat := by
  rw [sumReachesBound, decide_eq_true_iff, sum]

theorem advance_of_le (h : wrapBound.toNat ≤ cur.toNat + stepSize.toNat) :
    advance cur stepSize wrapBound = 0#cntW := by
  simp [advance, sumReachesBound, sum, h]

/-- The sum that is stored fits the register (41_sweep_accumulator.md R113: nothing is lost in the write). -/
theorem advance_toNat_of_lt (h : cur.toNat + stepSize.toNat < wrapBound.toNat) :
    (advance cur stepSize wrapBound).toNat = cur.toNat + stepSize.toNat := by
  have hb := wrapBound.isLt
  have : ¬ wrapBound.toNat ≤ cur.toNat + stepSize.toNat := by omega
  simp only [advance, sumReachesBound, sum, this, decide_false, Bool.false_eq_true, if_false,
    BitVec.toNat_ofNat]
  exact Nat.mod_eq_of_lt (by omega)

end Advance

section Fetch
variable {P : Params} (b : Block P)

theorem Block.fetch_control (h : b.pins.drive = .control) :
    b.fetch = [ctrlByte b.pins.rst b.pins.tick] := by simp [Block.fetch, h]

theorem Block.fetch_encoder (h : b.pins.drive = .encoder) :
    b.fetch = encode (.posctlSpd b.encCommand.speed16 b.encCommand.angle32) := by simp [Block.fetch, h]

theorem Block.fetch_frame {w : Flat} (h : b.pins.drive = .frame w) :
    b.fetch = wordBytes 8 w.toNat := by simp [Block.fetch, h]

end Fetch

end Sys2Proof.Machine
end

