-- ==== Sys2Proof/Laws/PerInstr.lean ====
section
/-!
SUPPORT. Statements made per instruction: each instruction's bytes decode to it.
-/

namespace Sys2Proof.Laws.RoundTrip

/-- The decoder reads back what the encoder wrote. -/
def Statement (i : Instr) : Prop := decode (encode i) = .ok i

theorem posctlSpd (speed : BitVec 16) (angle : BitVec 32) : Statement (.posctlSpd speed angle) := by
  have hs := Machine.speed_of_bytes speed
  have ha := Machine.angle_of_bytes angle
  simp only [Machine.speedHigh, Machine.speedLow, Machine.angleByte] at hs ha
  simp only [Statement, encode, decode, decodeFrame8, byteOf, ne_eq, not_true_eq_false, if_false, ha]
  exact congrArg (fun s => Except.ok (Instr.posctlSpd s angle)) hs

theorem reset (t : Bool) : Statement (.reset t) := by cases t <;> rfl

theorem tick : Statement .tick := rfl

theorem hold : Statement .hold := rfl

end Sys2Proof.Laws.RoundTrip
end

