-- ==== Sys2Proof/Laws/Step.lean ====
section
/-!
SUPPORT. What a step can do, said once: one equation for each value of `Drive`. Claims about a step cite
these and the field lemmas of Laws/State.lean, and do not unfold `step`.
-/

namespace Sys2Proof.Machine

variable {P : Params} (b : Block P)

/-- The effect of a TICK step on the block, before the pins of the next step. -/
def Block.ticked (b : Block P) : Block P :=
  (b.emit b.portFrame).setCur (advance b.cur b.pins.cfg.stepSize b.pins.cfg.wrapBound)

@[simp] theorem Block.ticked_cur :
    b.ticked.cur = advance b.cur b.pins.cfg.stepSize b.pins.cfg.wrapBound := rfl
@[simp] theorem Block.ticked_pins : b.ticked.pins = b.pins := rfl
@[simp] theorem Block.ticked_future : b.ticked.future = b.future := rfl
@[simp] theorem Block.ticked_emitted : b.ticked.emitted = b.emitted ++ [b.portFrame] := rfl
@[simp] theorem Block.ticked_encoded : b.ticked.encoded = b.encoded := rfl

theorem exec_tick : exec .tick ⟨P, b⟩ = .next ⟨P, b.ticked⟩ := rfl
theorem exec_hold : exec .hold ⟨P, b⟩ = .next ⟨P, b⟩ := rfl
theorem exec_reset (t : Bool) : exec (.reset t) ⟨P, b⟩ = .next ⟨P, b.setCur 0#_⟩ := rfl
theorem exec_posctlSpd (speed : BitVec 16) (angle : BitVec 32) :
    exec (.posctlSpd speed angle) ⟨P, b⟩ =
      .next ⟨P, b.output (pack { angle32 := angle, speed16 := speed, id := b.pins.encId })⟩ := rfl

theorem step_of_decode {i : Instr} (h : decode b.fetch = .ok i) :
    step ⟨P, b⟩ = endOfStep (exec i ⟨P, b⟩) := by simp [step, h]

theorem step_of_error {e : DecodeError} (h : decode b.fetch = .error e) :
    step ⟨P, b⟩ = .refused (.notAFrame e) := by simp [step, h]

theorem decode_ctrlByte (rst tick : Bool) :
    decode [ctrlByte rst tick] = .ok (if rst then .reset tick else if tick then .tick else .hold) := by
  cases rst <;> cases tick <;> decide

/-- In a clock cycle the control pins name the instruction (30_encoding.md R68). -/
theorem decode_fetch_control (hd : b.pins.drive = .control) :
    decode b.fetch =
      .ok (if b.pins.rst then .reset b.pins.tick else if b.pins.tick then .tick else .hold) := by
  rw [b.fetch_control hd, decode_ctrlByte]

theorem step_control_reset (hd : b.pins.drive = .control) (hr : b.pins.rst = true) :
    step ⟨P, b⟩ = .next ⟨P, (b.setCur 0#_).nextPins⟩ := by
  rw [step_of_decode b (decode_fetch_control b hd), hr]; rfl

theorem step_control_tick (hd : b.pins.drive = .control) (hr : b.pins.rst = false)
    (ht : b.pins.tick = true) : step ⟨P, b⟩ = .next ⟨P, b.ticked.nextPins⟩ := by
  rw [step_of_decode b (decode_fetch_control b hd), hr, ht]; rfl

theorem step_control_hold (hd : b.pins.drive = .control) (hr : b.pins.rst = false)
    (ht : b.pins.tick = false) : step ⟨P, b⟩ = .next ⟨P, b.nextPins⟩ := by
  rw [step_of_decode b (decode_fetch_control b hd), hr, ht]; rfl

theorem step_encoder (hd : b.pins.drive = .encoder) :
    step ⟨P, b⟩ = .next ⟨P, (b.output (pack b.encCommand)).nextPins⟩ := by
  have h := Laws.RoundTrip.posctlSpd b.encCommand.speed16 b.encCommand.angle32
  rw [Laws.RoundTrip.Statement, ← b.fetch_encoder hd] at h
  rw [step_of_decode b h]; rfl

/-- A raw word of the FRAME8 pattern (log 6). -/
theorem step_frame {w : Flat} (hd : b.pins.drive = .frame w) (h0 : byteOf w 0 = 0xA4#8)
    (h1 : byteOf w 1 = 0x00#8) :
    step ⟨P, b⟩ = .next ⟨P, (b.output (pack
      { angle32 := w.extractLsb' 32 32, speed16 := w.extractLsb' 16 16, id := b.pins.encId })).nextPins⟩ := by
  have h := decode_wordBytes w
  rw [← b.fetch_frame hd] at h
  simp only [h0, h1, ne_eq, not_true_eq_false, if_false] at h
  rw [step_of_decode b h]; rfl

/-- A raw word of no FRAME8 pattern is refused, and nothing else is. -/
theorem step_refused_frame {r : Refusal} (h : step ⟨P, b⟩ = .refused r) :
    ∃ w, b.pins.drive = .frame w ∧ ¬(byteOf w 0 = 0xA4#8 ∧ byteOf w 1 = 0x00#8) := by
  cases hd : b.pins.drive with
  | control =>
    cases hr : b.pins.rst
    · cases ht : b.pins.tick
      · rw [step_control_hold b hd hr ht] at h; cases h
      · rw [step_control_tick b hd hr ht] at h; cases h
    · rw [step_control_reset b hd hr] at h; cases h
  | encoder => rw [step_encoder b hd] at h; cases h
  | frame w =>
    refine ⟨w, rfl, fun ⟨h0, h1⟩ => ?_⟩
    rw [step_frame b hd h0 h1] at h; cases h

/-- Everything a step that goes on can do. -/
inductive StepCase (b : Block P) : Block P → Prop where
  | reset (hd : b.pins.drive = .control) (hr : b.pins.rst = true) : StepCase b (b.setCur 0#_)
  | tick (hd : b.pins.drive = .control) (hr : b.pins.rst = false) (ht : b.pins.tick = true) :
      StepCase b b.ticked
  | hold (hd : b.pins.drive = .control) (hr : b.pins.rst = false) (ht : b.pins.tick = false) :
      StepCase b b
  | encoder (hd : b.pins.drive = .encoder) : StepCase b (b.output (pack b.encCommand))
  | frame (w : Flat) (hd : b.pins.drive = .frame w) (h0 : byteOf w 0 = 0xA4#8) (h1 : byteOf w 1 = 0x00#8) :
      StepCase b (b.output (pack
        { angle32 := w.extractLsb' 32 32, speed16 := w.extractLsb' 16 16, id := b.pins.encId }))

/-- If a step answers a next state, one of the five cases holds, and the pins move on. -/
theorem step_next_cases {t : State} (h : step ⟨P, b⟩ = .next t) :
    ∃ b', StepCase b b' ∧ t = ⟨P, b'.nextPins⟩ := by
  cases hd : b.pins.drive with
  | control =>
    cases hr : b.pins.rst
    · cases ht : b.pins.tick
      · rw [step_control_hold b hd hr ht] at h; cases h; exact ⟨_, .hold hd hr ht, rfl⟩
      · rw [step_control_tick b hd hr ht] at h; cases h; exact ⟨_, .tick hd hr ht, rfl⟩
    · rw [step_control_reset b hd hr] at h; cases h; exact ⟨_, .reset hd hr, rfl⟩
  | encoder => rw [step_encoder b hd] at h; cases h; exact ⟨_, .encoder hd, rfl⟩
  | frame w =>
    have hw := decode_wordBytes w
    rw [← b.fetch_frame hd] at hw
    by_cases h0 : byteOf w 0 = 0xA4#8
    · by_cases h1 : byteOf w 1 = 0x00#8
      · rw [step_frame b hd h0 h1] at h; cases h; exact ⟨_, .frame w hd h0 h1, rfl⟩
      · simp only [h0, h1, ne_eq, not_true_eq_false, not_false_eq_true, if_true, if_false] at hw
        rw [step_of_error b hw] at h; cases h
    · simp only [h0, ne_eq, not_false_eq_true, if_true] at hw
      rw [step_of_error b hw] at h; cases h

end Sys2Proof.Machine
end

