-- ==== Sys2Proof/Laws/Run.lean ====
section
/-!
SUPPORT. Runs: their equations, the induction over them packaged once, and what the passing of the pins
keeps.
-/

namespace Sys2Proof.Machine

variable {P : Params}

theorem run_zero (s : State) : run 0 s = .next s := rfl

/-- The host's run, one step unrolled on the machine's own types. -/
theorem core_run_succ (M : Host.Core) (n : Nat) (s : M.State) :
    M.run (n + 1) s = Host.Outcome.casesOn (M.step s) (fun t => M.run n t) .fault .refused := by
  rw [Host.Core.run]
  cases M.step s <;> rfl

theorem run_succ (n : Nat) (s : State) :
    run (n + 1) s = match step s with
      | .next t => run n t
      | .fault r => .fault r
      | .refused r => .refused r := by
  have h : run (n + 1) s = Host.Outcome.casesOn (step s) (fun t => run n t) .fault .refused :=
    core_run_succ Sys2Proof.core n s
  rw [h]
  cases step s <;> rfl

theorem run_succ_of_next {n : Nat} {s t : State} (h : step s = .next t) : run (n + 1) s = run n t := by
  rw [run_succ, h]

/-- A run that goes on goes on at its first step. -/
theorem run_succ_next {n : Nat} {s u : State} (h : run (n + 1) s = .next u) :
    ∃ t, step s = .next t ∧ run n t = .next u := by
  rw [run_succ] at h
  cases hs : step s with
  | next t => rw [hs] at h; exact ⟨t, rfl, h⟩
  | fault r => cases r
  | refused r => rw [hs] at h; cases h

/-- What every step keeps, every run keeps. -/
theorem run_keeps (I : State → Prop) (hI : ∀ s t, I s → step s = .next t → I t) (n : Nat) :
    ∀ s u, I s → run n s = .next u → I u := by
  induction n with
  | zero => intro s u hs h; rw [run_zero] at h; cases h; exact hs
  | succ n ih =>
    intro s u hs h
    obtain ⟨t, ht, hu⟩ := run_succ_next h
    exact ih t u (hI s t hs ht) hu

/-- No case of a step touches the pins or the environment's list before the pins move on. -/
theorem StepCase.pins_future {b b' : Block P} (h : StepCase b b') :
    b'.pins = b.pins ∧ b'.future = b.future := by
  cases h <;> exact ⟨rfl, rfl⟩

/-- The pins of the next step depend on the pins and the list alone. -/
theorem Block.nextPins_congr {b c : Block P} (hp : b.pins = c.pins) (hf : b.future = c.future) :
    b.nextPins.pins = c.nextPins.pins ∧ b.nextPins.future = c.nextPins.future := by
  simp [hp, hf]

theorem Block.pinsAt_congr (n : Nat) {b c : Block P} (hp : b.pins = c.pins) (hf : b.future = c.future) :
    b.pinsAt n = c.pinsAt n := by
  induction n generalizing b c with
  | zero => exact hp
  | succ n ih =>
    obtain ⟨h1, h2⟩ := Block.nextPins_congr hp hf
    exact ih h1 h2

theorem Block.ticksIn_congr (n : Nat) {b c : Block P} (hp : b.pins = c.pins) (hf : b.future = c.future) :
    b.ticksIn n = c.ticksIn n := by
  induction n generalizing b c with
  | zero => rfl
  | succ n ih =>
    obtain ⟨h1, h2⟩ := Block.nextPins_congr hp hf
    simp only [Block.ticksIn, hp, ih h1 h2]

theorem Block.ConstantCfg.congr {b c : Block P} (h : b.ConstantCfg) (hp : b.pins = c.pins)
    (hf : b.future = c.future) : c.ConstantCfg := by
  unfold Block.ConstantCfg at *
  rwa [← hp, ← hf]

/-- A constant configuration stays constant as the pins move on, and is the same one. -/
theorem Block.ConstantCfg.nextPins {b : Block P} (h : b.ConstantCfg) :
    b.nextPins.pins.cfg = b.pins.cfg ∧ b.nextPins.ConstantCfg := by
  unfold Block.ConstantCfg at *
  cases hf : b.future with
  | nil => simp [hf]
  | cons p rest =>
    simp only [hf, List.mem_cons, forall_eq_or_imp] at h
    simp only [Block.nextPins_pins, Block.nextPins_future, hf, List.headD_cons, List.tail_cons]
    exact ⟨h.1, fun q hq => by rw [h.1]; exact h.2 q hq⟩

end Sys2Proof.Machine
end

