-- ==== Sys2Proof/Tests/Slice0.lean ====
section
/-!
SUPPORT. The model's own tests. Expected values are the vectors of spec/95_test_vectors.md (S, E, A, K, P)
or words written out from 30_encoding.md. The last part shows, for each statement with hypotheses, a state
and operands that meet them.
-/

namespace Sys2Proof.Tests

open Sys2Proof.Machine

/-! ## Helpers -/

/-- The pins of the spec's vectors: identifier 0x141, speed 500, given step and bound. -/
def pins (rst tick : Bool) (step bound : Nat) : Pins Params.default :=
  { drive := .control, rst, tick
    cfg := { Cfg.default Params.default 0x141#11 with
      stepSize := BitVec.ofNat 16 step, wrapBound := BitVec.ofNat 16 bound }
    encAngle := 90#32, encSpeed := 500#16, encId := 0x7FF#11 }

/-- The same pins with the stand-alone encoder, or a raw word, in charge. -/
def drive (d : Drive) : Pins Params.default := { pins false false 1 360 with drive := d }

/-- A block with angle `cur`, these pins and this list to come. -/
def blk (cur : Nat) (p : Pins Params.default) (future : List (Pins Params.default) := []) :
    Block Params.default :=
  { cur := BitVec.ofNat 16 cur, pins := p, future, emitted := [], encoded := [] }

/-- What one step leaves: the angle, the flat payloads at the port, those of the stand-alone encoder. -/
def after (b : Block Params.default) : Option (Nat × List Nat × List Nat) :=
  match step ⟨Params.default, b⟩ with
  | .next t => some (t.block.cur.toNat, t.block.emitted.map fun f => (flat f.payload).toNat,
      t.block.encoded.map fun f => (flat f.payload).toNat)
  | _ => none

/-- Parameters of program P6: `F = 8`, `SPD_W = 32`. -/
def p6 : Params := { Params.default with fracW := 8, spdW := 32 }

/-- A frame's identifier and payload bytes as numbers. -/
def view {n : Nat} (f : CanFrame n) : Nat × List Nat := (f.arbId.toNat, f.payload.toList.map BitVec.toNat)

/-! ## Well-formedness: each check refuses an ill-formed term -/

theorem smoke_defaults_legal : Params.default.accLegal = true ∧ p6.accLegal = true := by decide
theorem smoke_cntW_zero : ({ Params.default with cntW := 0 } : Params).legal = false := by decide
theorem smoke_angW_one : ({ Params.default with angW := 1 } : Params).legal = false := by decide
theorem smoke_fracW_not_below_angW : ({ Params.default with fracW := 32 } : Params).legal = false := by decide
theorem smoke_spdW_fifteen : ({ Params.default with spdW := 15 } : Params).legal = false := by decide
theorem smoke_idW_zero : ({ Params.default with idW := 0 } : Params).legal = false := by decide
theorem smoke_angW_too_narrow_for_acc :
    ({ Params.default with fracW := 16 } : Params).legal = true ∧
    ({ Params.default with fracW := 16 } : Params).accLegal = false := by decide
theorem smoke_bound_zero : (pins false true 1 0).cfg.legal = false ∧ (pins false true 1 1).cfg.legal = true := by
  decide
theorem smoke_instr : Instr.wellFormed (.posctlSpd 0xFFFF#16 1#32) = true := by decide

/-! ## Decoding: words written out bit by bit -/

/-- 30_encoding.md R67: bits 63..32 `a`, 31..16 `s`, then 00000000 10100100; vector S1. -/
theorem test_decode_posctlSpd : decodeTableWord 64
    0b0000000000000000001000110010100000000001111101000000000010100100 =
    some (.posctlSpd 500#16 9000#32) := by decide
/-- R68: `1t`. -/
theorem test_decode_reset : decodeTableWord 8 0b10 = some (.reset false) ∧
    decodeTableWord 8 0b11 = some (.reset true) := by decide
theorem test_decode_tick : decodeTableWord 8 0b01 = some .tick := by decide
theorem test_decode_hold : decodeTableWord 8 0b00 = some .hold := by decide
/-- E84, E85, a byte with a bit that is no pin, and a wrong length (R71). -/
theorem test_decode_rejects :
    decode [0xA5#8, 0#8, 0xF4#8, 1#8, 0x28#8, 0x23#8, 0#8, 0#8] = .error .badOpcode ∧
    decode [0xA4#8, 1#8, 0xF4#8, 1#8, 0x28#8, 0x23#8, 0#8, 0#8] = .error .badReserved ∧
    decode [0x04#8] = .error .notControl ∧ decode [0xA4#8, 0#8] = .error .badLength := by
  refine ⟨?_, ?_, ?_, ?_⟩ <;> rfl
/-- No two rows of one format share a word (the masks of the table). -/
theorem test_table_rows_disjoint : opcodeTable.Pairwise fun r q =>
    r.width ≠ q.width ∨ (r.mask &&& q.mask &&& (r.pattern ^^^ q.pattern)) ≠ 0 := by decide
/-- Each CTRL word is decoded to the row whose mask and match it has. -/
theorem test_table_ctrl_rows : ∀ w < 4,
    (opcodeTable.filter fun r => r.width == 2 && (w &&& r.mask == r.pattern)).map TableRow.mnemonic =
      match decodeTableWord 8 w with
      | some (.reset _) => ["RESET"]
      | some .tick => ["TICK"]
      | some .hold => ["HOLD"]
      | _ => [] := by decide
theorem test_encode_posctlSpd : encode (.posctlSpd 500#16 9000#32) =
    [0xA4#8, 0x00#8, 0xF4#8, 0x01#8, 0x28#8, 0x23#8, 0x00#8, 0x00#8] := by decide

/-! ## The encoder -/

/-- S1. -/
theorem test_enc_S1 : view (encodeCall Params.default 90 500 0x141) =
    (0x141, [0xA4, 0x00, 0xF4, 0x01, 0x28, 0x23, 0x00, 0x00]) := by decide
/-- E12, E14, E20 to E25: negative angles and the edges of the 32-bit field. -/
theorem test_angle_field :
    [-1, -360, 21474836, 21474837, -21474836, -21474837, 42949672, 42949673].map
      (fun a : Int => (wrap32 (scale 0 (BitVec.ofInt 32 a))).toNat) =
    [0xFFFFFF9C, 0xFFFF7360, 0x7FFFFFD0, 0x80000034, 0x80000030, 0x7FFFFFCC, 0xFFFFFFA0, 0x00000004] := by
  decide
/-- E30 to E37: truncation toward zero, after the multiplication. -/
theorem test_fractions : [128, -128, 1, -1, 3, -3, 5, -5].map
      (fun a : Int => scale 8 (BitVec.ofInt 32 a)) = [50, -50, 0, 0, 1, -1, 1, -1] := by decide
/-- E56 to E61. -/
theorem test_speed_field : [65535, 65536, 66036, 74565, -1, -500].map
      (fun s : Int => (speed16 (BitVec.ofInt 32 s)).toNat) =
    [0xFFFF, 0x0000, 0x01F4, 0x2345, 0xFFFF, 0xFE0C] := by decide
/-- P6, rows 3 to 5. -/
theorem test_program_P6 :
    view (encodeCall p6 (-23104) 65535 0x141) = (0x141, [0xA4, 0, 0xFF, 0xFF, 0xBF, 0xDC, 0xFF, 0xFF]) ∧
    view (encodeCall p6 (-3) 66036 0x7FF) = (0x7FF, [0xA4, 0, 0xF4, 0x01, 0xFF, 0xFF, 0xFF, 0xFF]) ∧
    view (encodeCall p6 (-1) (-1) 0) = (0, [0xA4, 0, 0xFF, 0xFF, 0, 0, 0, 0]) := by decide
/-- S1's flat value. -/
theorem test_flat_S1 : flat (encodeCall Params.default 90 500 0x141).payload = 0x0000232801F400A4#64 := by
  decide
/-- E80 to E83. -/
theorem test_readBack :
    readBack #v[0xA4#8, 0#8, 0xFF#8, 0xFF#8, 0xD8#8, 0xDC#8, 0xFF#8, 0xFF#8] = some ⟨65535, -9000⟩ ∧
    readBack #v[0xA4#8, 0#8, 0xE8#8, 0x03#8, 0x41#8, 0x23#8, 0#8, 0#8] = some ⟨1000, 9025⟩ ∧
    readBack #v[0xA4#8, 0#8, 0xF4#8, 0x01#8, 0x34#8, 0#8, 0#8, 0x80#8] = some ⟨500, -2147483596⟩ ∧
    readBack #v[0xA5#8, 0#8, 0xF4#8, 0x01#8, 0x28#8, 0x23#8, 0#8, 0#8] = none := by decide
/-- R94's checks: the biased shift, against the plain one. -/
theorem test_shift : tdivByShift (-100) 8 = 0 ∧ tdivByShift (-300) 8 = -1 ∧ tdivByShift (-256) 8 = -1 ∧
    (-300 : Int) >>> 8 = -2 := by decide
/-- R70, R72: the texts of the concrete scenario. -/
theorem test_texts :
    dataText (encodeCall Params.default 90 500 0x141).payload =
      ['A', '4', '0', '0', 'F', '4', '0', '1', '2', '8', '2', '3', '0', '0', '0', '0'] ∧
    idText 0x141#11 = ['1', '4', '1'] ∧ idText 0#11 = ['0'] ∧
    idOfText ['1', '4', '1'] = some 0x141 ∧ idOfText ['1', 'g'] = none := by decide

/-! ## The advance and the steps -/

/-- A2, A3, A5, A6, A7, A10, A13, A14, A15, A16. -/
theorem test_advance :
    [(358, 1, 360), (359, 1, 360), (353, 7, 360), (357, 7, 360), (0, 0, 360), (0, 1, 1),
      (40000, 40000, 65535), (65534, 65535, 65535), (0, 5, 0), (300, 1, 100)].map
      (fun (c, s, w) => (advance (BitVec.ofNat 16 c) (BitVec.ofNat 16 s) (BitVec.ofNat 16 w)).toNat) =
    [359, 0, 0, 0, 0, 0, 0, 0, 0, 0] := by decide
/-- A17: at 8 bits a sum without the carry would store 44. -/
theorem test_advance_A17 : advance 200#8 100#8 255#8 = 0#8 ∧ advanceAtWidth 9 200#8 100#8 255#8 = 0#8 ∧
    advanceAtWidth 8 200#8 100#8 255#8 = 44#8 := by decide
/-- K1, K2, K3, K4. -/
theorem test_step_hold : after (blk 5 (pins false false 1 360)) = some (5, [], []) := by decide
theorem test_step_tick : after (blk 5 (pins false true 1 360)) = some (6, [0x000001F401F400A4], []) := by
  decide
theorem test_step_reset : after (blk 5 (pins true false 1 360)) = some (0, [], []) := by decide
theorem test_step_reset_loses_tick : after (blk 5 (pins true true 1 360)) = some (0, [], []) := by decide
/-- S3, P3 cycle 2: the step that does not divide the bound: 357 then 0. -/
theorem test_step_tick_wraps : after (blk 357 (pins false true 7 360)) =
    some (0, [0x00008B7401F400A4], []) := by decide
/-- The stand-alone encoder (E6) and a raw word; neither touches the angle or the port. -/
theorem test_step_encoder : after (blk 5 (drive .encoder)) = some (5, [], [0x0000232801F400A4]) := by decide
theorem test_step_frame : after (blk 5 (drive (.frame 0x8000003401F400A4#64))) =
    some (5, [], [0x8000003401F400A4]) := by decide
theorem test_step_frame_refused : after (blk 5 (drive (.frame 0x0000232801F401A4#64))) = none := by decide
/-- The outputs of P1 cycle 6: `cur = 3`, no tick. -/
theorem test_ports_idle : (blk 3 (pins false false 1 360)).frameValid = false ∧
    (blk 3 (pins false false 1 360)).payload = 0x0000012C01F400A4#64 ∧
    (blk 3 (pins false false 1 360)).arbId.toNat = 0x141 := by decide
/-- A placed word is what the next step runs. -/
theorem test_withFetchWord :
    after ((State.reset.withFetchWord 8 0b01).block) = some (1, [0x0000000001F400A4], []) ∧
    after ((State.reset.withFetchWord 64 0x0000232801F400A4).block) = some (0, [], [0x0000232801F400A4]) := by
  decide

/-! ## Hypotheses of the statements can be met -/

theorem wit_division : (0 : Int) < 2 ∧ tdiv (-7) 2 ≠ -7 / 2 ∧ tdiv 7 2 = 7 / 2 := by decide
theorem wit_scale : |((-1#32).toInt : ℚ) / 2 ^ 8| < 1 / 100 := by
  rw [show (-1#32).toInt = -1 by decide]; norm_num [abs_lt]
theorem wit_angle_wraps : (-2 ^ 31 : Int) ≤ -2 ^ 31 ∧ (2 ^ 31 - 1 : Int) ≤ 2 ^ 31 - 1 ∧
    (wrap32 (-2 ^ 31)).toInt = -2 ^ 31 ∧ (wrap32 (2 ^ 31 - 1)).toInt = 2 ^ 31 - 1 := by decide
theorem wit_speed : 16 ≤ 32 ∧ SpeedInRange (65535#32).toNat ∧ SpeedInRange (0#32).toInt ∧
    ¬SpeedInRange (65536#32).toNat := by decide
theorem wit_readBack : SpeedInRange (65535#32).toNat ∧ AngleInRange 0 (21474836#32).toInt ∧
    ¬AngleInRange 0 (21474837#32).toInt ∧
    readBack #v[0xA4#8, 1#8, 0#8, 0#8, 0#8, 0#8, 0#8, 0#8] = none := by decide
theorem wit_readBack_error :
    (AngleInRange 8 (-3#32).toInt ∧ readBack (enc 8 (-3#32) 500#16 0x141#11).payload = some ⟨500, -1⟩) ∧
    (AngleInRange 8 (3#32).toInt ∧ readBack (enc 8 3#32 500#16 0x141#11).payload = some ⟨500, 1⟩) ∧
    (AngleInRange 0 (90#32).toInt ∧ readBack (enc 0 90#32 500#16 0x141#11).payload = some ⟨500, 9000⟩) := by
  decide
theorem wit_shift : 8 < 32 ∧ 32 + 8 ≤ 40 ∧ (scaleByShift 40 8 (-3#32)).toInt = -1 := by decide
theorem wit_acc_legal : Params.default.accLegal = true ∧ p6.accLegal = true := by decide
/-- `CNT_W = 25`: the largest angle that does not wrap, under a bound of 21474837. -/
theorem wit_wide_angle : ({ Params.default with cntW := 25 } : Params).accLegal = true ∧
    21474836 < (21474837#25).toNat ∧ (21474836#25).toNat = 21474836 := by decide
theorem wit_adder_widths : 16 + 1 ≤ 17 ∧ 16 + 1 ≤ 32 := by decide
/-- Below, at and above the range of an 8-bit sum. -/
theorem wit_narrow_adder : (200#8).toNat < (255#8).toNat ∧ 200 + 55 < 2 ^ 8 ∧ 200 + 56 = 2 ^ 8 ∧
    advanceAtWidth 8 200#8 56#8 255#8 = advance 200#8 56#8 255#8 ∧
    advanceAtWidth 8 200#8 57#8 255#8 ≠ advance 200#8 57#8 255#8 := by decide
/-- The sum below the bound, at it, and past it (S3). -/
theorem wit_modulo : (350#16).toNat < (360#16).toNat ∧ (359#16).toNat + (1#16).toNat = 360 ∧
    ¬360 ∣ (357#16).toNat + (7#16).toNat := by decide
theorem wit_advance_climbs : 1 ≤ (1#16).toNat ∧ (358#16).toNat + (1#16).toNat < (360#16).toNat ∧
    (360#16).toNat ≤ (359#16).toNat + (1#16).toNat := by decide
theorem wit_bound_never_stored : ∃ b' : Block Params.default,
    (blk 359 (pins false true 1 360)).InRange ∧
    (blk 359 (pins false true 1 360)).pins.cfg.wrapBound.toNat ≤ 21474837 ∧
    exec .tick ⟨Params.default, blk 359 (pins false true 1 360)⟩ = .next ⟨Params.default, b'⟩ :=
  ⟨_, by decide, by decide, rfl⟩
theorem wit_instructions_change_only_their_own (i : Instr) : ∃ t : State,
    exec i ⟨Params.default, blk 5 (pins false true 1 360)⟩ = .next t := by
  cases i <;> exact ⟨_, rfl⟩
/-- Both ends of the environment's list. -/
theorem wit_step_runs : ∃ b' c' : Block Params.default,
    decode (blk 5 (pins false true 1 360)).fetch = .ok .tick ∧
    exec .tick ⟨Params.default, blk 5 (pins false true 1 360)⟩ = .next ⟨Params.default, b'⟩ ∧
    b'.future = [] ∧
    exec .tick ⟨Params.default, blk 5 (pins false true 1 360) [pins true false 1 360]⟩ =
      .next ⟨Params.default, c'⟩ ∧ c'.future = [pins true false 1 360] :=
  ⟨_, _, rfl, rfl, rfl, rfl, rfl⟩
theorem wit_control_pins :
    (pins true true 1 360).drive = .control ∧ (pins true true 1 360).rst = true ∧
    (pins false true 1 360).rst = false ∧ (pins false true 1 360).tick = true ∧
    (pins false false 1 360).tick = false := by decide
theorem wit_nothing_stops (w : Flat) : (pins false true 1 360).drive ≠ .frame w ∧
    (drive .encoder).drive ≠ .frame w ∧ (pins false true 1 360).selectsTick = true :=
  ⟨nofun, nofun, by decide⟩
theorem wit_step_next : ∃ b' : Block Params.default,
    step ⟨Params.default, blk 5 (pins false true 1 360)⟩ = .next ⟨Params.default, b'⟩ ∧
    step ⟨Params.default, blk 5 (pins true true 1 360)⟩ ≠ .next ⟨Params.default, b'⟩ := by
  refine ⟨_, step_control_tick _ rfl rfl rfl, fun h => ?_⟩
  rw [step_control_reset _ rfl rfl] at h
  have := congrArg (fun o => match o with | .next t => t.block.cur.toNat | _ => 7) h
  revert this; decide
theorem wit_encoder_drives : (blk 5 (drive .encoder)).pins.drive = .encoder := rfl
theorem wit_raw_words :
    (blk 5 (drive (.frame 0x0000232801F400A4#64))).pins.drive = .frame 0x0000232801F400A4#64 ∧
    0x0000232801F400A4#64 &&& 0x000000000000FFFF#64 = 0x00000000000000A4#64 ∧
    0x0000232801F401A4#64 &&& 0x000000000000FFFF#64 ≠ 0x00000000000000A4#64 := by decide
theorem wit_placed_words : decodeTableWord 8 3 = some (.reset true) ∧
    decodeTableWord 64 0xFFFFFFFFFFFF00A4 = some (.posctlSpd 0xFFFF#16 0xFFFFFFFF#32) ∧
    (0xFFFFFFFFFFFF00A4 : Nat) < 2 ^ 64 := by decide
theorem wit_inv : State.Inv ⟨Params.default, blk 359 (pins false true 1 360) [pins false true 1 360]⟩ ∧
    ∃ s' : State,
      step ⟨Params.default, blk 359 (pins false true 1 360) [pins false true 1 360]⟩ = .next s' :=
  ⟨by decide, _, step_control_tick _ rfl rfl rfl⟩
theorem wit_constant_bytes : ∃ b' : Block Params.default,
    step ⟨Params.default, { blk 5 (pins false true 1 360) with
      emitted := [encodeCall Params.default 90 500 0x141] }⟩ = .next ⟨Params.default, b'⟩ ∧
    ∀ f ∈ [encodeCall Params.default 90 500 0x141] ++ [], f.payload[0] = 0xA4#8 ∧ f.payload[1] = 0x00#8 :=
  ⟨_, step_control_tick _ rfl rfl rfl, by decide⟩
/-- A sweep of three steps: TICK, a use of the stand-alone encoder, HOLD. -/
theorem wit_sweep :
    (blk 0 (pins false true 7 360) [{ pins false false 7 360 with drive := .encoder }]).cur.toNat = 0 ∧
    (blk 0 (pins false true 7 360) [{ pins false false 7 360 with drive := .encoder }]).ConstantCfg ∧
    (blk 0 (pins false true 7 360) [{ pins false false 7 360 with drive := .encoder }]).SweepsFor 3 ∧
    (blk 0 (pins false true 7 360) [{ pins false false 7 360 with drive := .encoder }]).ticksIn 3 = 1 ∧
    1 ≤ (pins false true 7 360).cfg.stepSize.toNat ∧ 1 ≤ (pins false true 7 360).cfg.wrapBound.toNat := by
  refine ⟨by decide, by decide, ?_, by decide, by decide, by decide⟩
  intro k hk
  interval_cases k <;> exact ⟨by decide, fun w h => by cases h⟩
/-- S3: the last angle below the bound, `k = 51`, and the wrap at `k = 52`; a TICK, a RESET and a HOLD step. -/
theorem wit_sweep_step :
    (blk 357 (pins false true 7 360)).ConstantCfg ∧
    1 ≤ (pins false true 7 360).cfg.stepSize.toNat ∧ 1 ≤ (pins false true 7 360).cfg.wrapBound.toNat ∧
    (blk 357 (pins false true 7 360)).cur.toNat = sweepAngle 7 360 51 ∧
    (pins false true 7 360).selectsTick = true ∧ (pins true true 7 360).selectsReset = true ∧
    (pins false false 7 360).selectsTick = false ∧ (pins false false 7 360).selectsReset = false ∧
    ∃ b' : Block Params.default,
      step ⟨Params.default, blk 357 (pins false true 7 360)⟩ = .next ⟨Params.default, b'⟩ :=
  ⟨by decide, by decide, by decide, by decide, by decide, by decide, by decide, by decide, _,
    step_control_tick _ rfl rfl rfl⟩
/-- S4, Q3, Q6: the periods of the vectors. -/
theorem wit_periods : period 1 360 = 360 ∧ period 7 360 = 52 ∧ period 100 360 = 4 ∧ period 360 360 = 1 ∧
    sweepAngle 7 360 51 = 357 ∧ sweepAngle 7 360 52 = 0 := by decide
/-- Zero step, step at the bound, zero bound. -/
theorem wit_degenerate :
    (pins false true 0 360).cfg.stepSize.toNat = 0 ∧
    (pins false true 360 360).cfg.wrapBound.toNat ≤ (pins false true 360 360).cfg.stepSize.toNat ∧
    (pins false true 5 0).cfg.wrapBound.toNat ≤ (pins false true 5 0).cfg.stepSize.toNat ∧
    (blk 0 (pins false true 0 360)).ConstantCfg ∧
    ∃ b' : Block Params.default, run 1 ⟨Params.default, blk 0 (pins false true 0 360)⟩ =
      .next ⟨Params.default, b'⟩ :=
  ⟨by decide, by decide, by decide, by decide, _,
    by rw [run_succ_of_next (step_control_tick _ rfl rfl rfl)]; rfl⟩
theorem wit_ceasing : (blk 5 (pins false false 1 360)).pins.drive = .control ∧
    (blk 5 (pins false false 1 360)).pins.tick = false ∧ (blk 5 (pins false false 1 360)).future = [] := by
  decide
theorem wit_start : (blk 123 (pins true false 1 360) [pins false true 1 360]).pins.rst = true ∧
    (blk 123 (pins true false 1 360) [pins false true 1 360]).future = pins false true 1 360 :: [] ∧
    (pins false true 1 360).tick = true := by decide
theorem wit_resets : ∀ k < 2, ((blk 5 (pins true false 1 360) [pins true true 1 360]).pinsAt k).drive = .control ∧
    ((blk 5 (pins true false 1 360) [pins true true 1 360]).pinsAt k).rst = true := by decide
/-- Two blocks that differ in their records and in the tick interval alone. -/
theorem wit_seen : ∃ a b b' : Block Params.default, a ≠ b ∧ a.seen = b.seen ∧
    step ⟨Params.default, a⟩ = .next ⟨Params.default, b'⟩ := by
  refine ⟨blk 5 (pins false true 1 360),
    { blk 5 { pins false true 1 360 with cfg := { (pins false true 1 360).cfg with tickInterval := ⟨1, 2⟩ } } with
      emitted := [encodeCall Params.default 90 500 0x141] }, _, by decide, by decide,
    step_control_tick _ rfl rfl rfl⟩
theorem wit_seen_refused : ∃ r, step ⟨Params.default, blk 5 (drive (.frame 0#64))⟩ = .refused r :=
  ⟨_, step_of_error (e := .badOpcode) _ rfl⟩
/-- A16: the bound lowered below `cur`; a TICK and a HOLD step. -/
theorem wit_lowered_bound :
    (pins false true 1 100).cfg.wrapBound.toNat ≤ (blk 300 (pins false true 1 100)).cur.toNat ∧
    (pins false true 1 100).selectsTick = true ∧ (pins false false 1 100).selectsTick = false ∧
    (pins false false 1 100).selectsReset = false ∧
    ∃ b' : Block Params.default,
      step ⟨Params.default, blk 300 (pins false true 1 100)⟩ = .next ⟨Params.default, b'⟩ :=
  ⟨by decide, by decide, by decide, by decide, _, step_control_tick _ rfl rfl rfl⟩

end Sys2Proof.Tests
end

/-! ## Division rounded toward zero (00_scope.md R14) -/

section
namespace Sys2Proof.Machine

theorem tdiv_of_nonneg {p : Int} (hp : 0 ≤ p) (d : Int) : tdiv p d = p / d :=
  Int.tdiv_eq_ediv_of_nonneg hp

theorem tdiv_neg_left (p d : Int) : tdiv (-p) d = -tdiv p d := Int.neg_tdiv p d

theorem tdiv_of_neg {p : Int} (hp : p < 0) (d : Int) : tdiv p d = -(-p / d) := by
  rw [← tdiv_of_nonneg (by omega) d, tdiv_neg_left, neg_neg]

theorem tdiv_eq_ite (p d : Int) : tdiv p d = if 0 ≤ p then p / d else -(-p / d) := by
  split
  case isTrue hp => exact tdiv_of_nonneg hp d
  case isFalse hp => exact tdiv_of_neg (not_le.mp hp) d

/-- `tdiv` exceeds floor by one on an inexact negative dividend and agrees with it elsewhere. -/
theorem tdiv_eq_ediv_add {d : Int} (hd : 0 < d) (p : Int) :
    tdiv p d = p / d + if p < 0 ∧ ¬d ∣ p then 1 else 0 := by
  have hsign : d.sign = 1 := Int.sign_eq_one_of_pos hd
  have hiff : (0 ≤ p ∨ d ∣ p) ↔ ¬(p < 0 ∧ ¬d ∣ p) := by rw [not_and_or, not_lt, not_not]
  simp only [tdiv, Int.tdiv_eq_ediv, hsign, hiff, ite_not]

theorem tdiv_ne_ediv_iff {d : Int} (hd : 0 < d) (p : Int) :
    tdiv p d ≠ p / d ↔ p < 0 ∧ ¬d ∣ p := by
  rw [tdiv_eq_ediv_add hd]
  split <;> simp [*]

theorem ediv_eq_tdiv_sub_one {d : Int} (hd : 0 < d) {p : Int} (hne : tdiv p d ≠ p / d) :
    p / d = tdiv p d - 1 := by
  rw [tdiv_eq_ediv_add hd, if_pos ((tdiv_ne_ediv_iff hd p).mp hne), add_sub_cancel_right]

theorem roundTowardZero_eq_ite_floor (r : ℚ) :
    roundTowardZero r = if 0 ≤ r then ⌊r⌋ else -⌊-r⌋ := rfl

theorem floor_intCast_div {d : Int} (hd : 0 < d) (p : Int) : ⌊(p : ℚ) / (d : ℚ)⌋ = p / d := by
  lift d to ℕ using hd.le
  exact_mod_cast Rat.floor_intCast_div_natCast p d

theorem tdiv_eq_roundTowardZero {d : Int} (hd : 0 < d) (p : Int) :
    tdiv p d = roundTowardZero ((p : ℚ) / (d : ℚ)) := by
  have hsign : 0 ≤ (p : ℚ) / (d : ℚ) ↔ 0 ≤ p := by
    rw [le_div_iff₀ (Int.cast_pos.mpr hd), zero_mul, Int.cast_nonneg_iff]
  have hneg : -((p : ℚ) / (d : ℚ)) = ((-p : Int) : ℚ) / (d : ℚ) := by
    rw [Int.cast_neg, neg_div]
  simp only [tdiv_eq_ite, roundTowardZero_eq_ite_floor, hsign, hneg, floor_intCast_div hd]

/-- Settles O1: each clause of R14 is a lemma about `tdiv`, and the shift by `F` is the floor of `p / 2^F`. -/
theorem divisionRoundsTowardZero : Obligations.DivisionRoundsTowardZero := by
  unfold Obligations.DivisionRoundsTowardZero
  refine ⟨fun p d hd => ⟨tdiv_eq_ite p d, tdiv_eq_roundTowardZero hd p, tdiv_ne_ediv_iff hd p,
    ediv_eq_tdiv_sub_one hd, ?_⟩, roundTowardZero_eq_ite_floor, by decide, by decide, by decide⟩
  intro F hF
  have hshift : p >>> F = p / d := by rw [hF, Int.shiftRight_eq_div_pow]; norm_cast
  rw [hshift, tdiv_ne_ediv_iff hd]

end Sys2Proof.Machine
end

/-! ## The constant bytes of every frame (30_encoding.md R62, R63) -/

section
namespace Sys2Proof.Machine

variable {P : Params} {b b' : Block P} {f : CanFrame P.idW}

/-- A frame that a step adds to what has left the block was made by PACK. -/
theorem StepCase.frame_recorded_or_packed (h : StepCase b b') (hf : f ∈ b'.emitted ++ b'.encoded) :
    f ∈ b.emitted ++ b.encoded ∨ ∃ cmd, f = pack cmd := by
  cases h with
  | reset | hold => exact .inl hf
  | tick =>
    have hnew : (f ∈ b.emitted ∨ f = b.portFrame) ∨ f ∈ b.encoded := by simpa [or_assoc] using hf
    obtain (hrec | hport) | hrec := hnew
    · exact .inl (List.mem_append_left _ hrec)
    · exact .inr ⟨_, hport.trans (enc_eq_pack ..)⟩
    · exact .inl (List.mem_append_right _ hrec)
  | encoder | frame =>
    rw [Block.output_emitted, Block.output_encoded, ← List.append_assoc] at hf
    obtain hrec | hpack := List.mem_append.mp hf
    · exact .inl hrec
    · exact .inr ⟨_, List.mem_singleton.mp hpack⟩

/-- The pins of the next step add no frame, so the same holds of a whole step. -/
theorem step_frame_recorded_or_packed (h : step ⟨P, b⟩ = .next ⟨P, b'⟩)
    (hf : f ∈ b'.emitted ++ b'.encoded) : f ∈ b.emitted ++ b.encoded ∨ ∃ cmd, f = pack cmd := by
  obtain ⟨c, hc, heq⟩ := step_next_cases b h
  cases heq
  rw [Block.nextPins_emitted, Block.nextPins_encoded] at hf
  exact hc.frame_recorded_or_packed hf

/-- Settles O43: a frame is either an old one or packed, and PACK writes both constants itself. -/
theorem everyFrameHasTheConstantBytes : Obligations.EveryFrameHasTheConstantBytes := by
  unfold Obligations.EveryFrameHasTheConstantBytes
  intro P b b' hstep hold f hf
  obtain hrec | ⟨cmd, rfl⟩ := step_frame_recorded_or_packed hstep hf
  · exact hold f hrec
  · exact ⟨pack_payload_0 cmd, pack_payload_1 cmd⟩

end Sys2Proof.Machine
end

/-! ## SCALE (40_frame_encoder.md R81) -/

section
namespace Sys2Proof.Machine

variable {angW : Nat} (F : Nat) (angle : BitVec angW)

theorem scale_eq_tdiv : scale F angle = Int.tdiv (angle.toInt * 100) (2 ^ F) := by
  rw [scale, tdiv, Nat.cast_pow, Nat.cast_ofNat]

/-- The product comes first: dividing it by `2^F` is multiplying the angle in degrees by 100. -/
theorem scale_eq_roundTowardZero :
    scale F angle = roundTowardZero ((angle.toInt : ℚ) / 2 ^ F * 100) := by
  have hpow : (0 : Int) < ((2 ^ F : Nat) : Int) := Int.natCast_pos.mpr (Nat.two_pow_pos F)
  rw [scale, tdiv_eq_roundTowardZero hpow, div_mul_eq_mul_div, Int.cast_mul,
    Int.cast_ofNat, Int.cast_natCast, Nat.cast_pow, Nat.cast_ofNat]

theorem scale_zero_frac : scale 0 angle = angle.toInt * 100 := Int.tdiv_one _

theorem roundTowardZero_of_abs_lt_one {r : ℚ} (h : |r| < 1) : roundTowardZero r = 0 := by
  obtain ⟨hlo, hhi⟩ := abs_lt.mp h
  rw [roundTowardZero_eq_ite_floor]
  split
  case isTrue hr => exact Int.floor_eq_zero_iff.mpr ⟨hr, hhi⟩
  case isFalse hr =>
    rw [neg_eq_zero]
    exact Int.floor_eq_zero_iff.mpr ⟨by linarith, by linarith⟩

theorem scale_of_abs_lt_centidegree (h : |(angle.toInt : ℚ) / 2 ^ F| < 1 / 100) :
    scale F angle = 0 := by
  rw [scale_eq_roundTowardZero]
  apply roundTowardZero_of_abs_lt_one
  rw [abs_mul, abs_of_pos (by norm_num : (0 : ℚ) < 100)]
  linarith

/-- Settles O2: the four readings of SCALE are the four lemmas above. -/
theorem scaleTruncatesTheProduct : Obligations.ScaleTruncatesTheProduct := by
  unfold Obligations.ScaleTruncatesTheProduct
  intro angW F angle
  refine ⟨scale_eq_tdiv F angle, scale_eq_roundTowardZero F angle, ?_,
    scale_of_abs_lt_centidegree F angle⟩
  rintro rfl
  exact scale_zero_frac angle

end Sys2Proof.Machine
end

/-! ## WRAP32 (40_frame_encoder.md R82) -/

section
namespace Sys2Proof.Machine

variable (centi : Int)

theorem wrap32_toNat : ((wrap32 centi).toNat : Int) = centi % 2 ^ 32 := by
  rw [wrap32, BitVec.toNat_ofInt]
  exact Int.toNat_of_nonneg (Int.emod_nonneg centi (by decide))

/-- The signed reading recovers `centi` exactly when `centi` is a 32-bit signed number. -/
theorem wrap32_toInt_eq_iff : (wrap32 centi).toInt = centi ↔ -2 ^ 31 ≤ centi ∧ centi ≤ 2 ^ 31 - 1 := by
  have hlo := BitVec.le_toInt (wrap32 centi)
  have hhi := BitVec.toInt_lt (x := wrap32 centi)
  constructor
  · intro h
    omega
  · rintro ⟨h₁, h₂⟩
    rw [wrap32, BitVec.toInt_ofInt]
    exact Int.bmod_eq_of_le (by omega) (by omega)

/-- Settles O3: the residue of `wrap32_toNat`, and the easy half of `wrap32_toInt_eq_iff`. -/
theorem angleWrapsToThirtyTwoBits : Obligations.AngleWrapsToThirtyTwoBits := by
  unfold Obligations.AngleWrapsToThirtyTwoBits
  exact fun centi => ⟨wrap32_toNat centi, fun hlo hhi => (wrap32_toInt_eq_iff centi).mpr ⟨hlo, hhi⟩⟩

end Sys2Proof.Machine
end

/-! ## SPEED16 (40_frame_encoder.md R83) -/

section
namespace Sys2Proof.Machine

variable {spdW : Nat} (S : BitVec spdW)

theorem speed16_toNat : (speed16 S).toNat = S.toNat % 2 ^ 16 := by
  rw [speed16, BitVec.extractLsb'_toNat, Nat.shiftRight_zero]

/-- The unsigned and the signed reading differ by a multiple of `2^SPD_W`, so of `2^16`. -/
theorem speed16_toNat_eq_toInt_emod (hw : 16 ≤ spdW) :
    ((speed16 S).toNat : Int) = S.toInt % 2 ^ 16 := by
  have hdvd : (2 ^ 16 : Int) ∣ ((2 ^ spdW : Nat) : Int) := by
    exact_mod_cast Nat.pow_dvd_pow 2 hw
  rw [speed16_toNat, BitVec.toInt_eq_toNat_bmod, ← Int.emod_emod_of_dvd _ hdvd, Int.bmod_emod,
    Int.emod_emod_of_dvd _ hdvd]
  norm_cast

theorem speed16_toNat_eq_iff : (speed16 S).toNat = S.toNat ↔ SpeedInRange S.toNat := by
  rw [speed16_toNat]
  omega

theorem speed16_eq_self (S : BitVec 16) : speed16 S = S := BitVec.extractLsb'_eq_self

/-- Settles O4: one residue with two readings; inside the range the residue is the input. -/
theorem speedKeepsItsLowSixteenBits : Obligations.SpeedKeepsItsLowSixteenBits := by
  unfold Obligations.SpeedKeepsItsLowSixteenBits
  constructor
  · intro spdW S hw
    have hsigned := speed16_toNat_eq_toInt_emod S hw
    refine ⟨speed16_toNat S, hsigned, (speed16_toNat_eq_iff S).mpr, ?_⟩
    rintro ⟨hlo, hhi⟩
    rw [hsigned]
    exact Int.emod_eq_of_lt hlo (by omega)
  · intro S
    have hself := speed16_eq_self S
    exact ⟨(speed16_toNat_eq_iff S).mp (by rw [hself]), hself⟩

end Sys2Proof.Machine
end

/-! ## The bytes PACK places (40_frame_encoder.md R85 to R88) -/

section
namespace Sys2Proof.Machine

theorem speedLow_toNat (s : BitVec 16) : (speedLow s).toNat = s.toNat % 256 := by
  rw [speedLow, BitVec.extractLsb'_toNat, Nat.shiftRight_zero]

theorem speedHigh_toNat (s : BitVec 16) : (speedHigh s).toNat = s.toNat / 256 := by
  rw [speedHigh, BitVec.extractLsb'_toNat, Nat.shiftRight_eq_div_pow]
  omega

theorem angleByte_toNat (a : BitVec 32) (j : Nat) :
    (angleByte a j).toNat = a.toNat / 256 ^ j % 256 := by
  rw [angleByte, BitVec.extractLsb'_toNat, Nat.shiftRight_eq_div_pow, Nat.pow_mul]

/-- The last byte of the angle is a quotient with nothing to mask off. -/
theorem angleByte_three_toNat (a : BitVec 32) : (angleByte a 3).toNat = a.toNat / 256 ^ 3 := by
  rw [angleByte_toNat]
  omega

/-- Settles O5: PACK places a named byte at each offset, and each byte is a digit of its field in base 256. -/
theorem packPlacesEveryByte : Obligations.PackPlacesEveryByte := by
  unfold Obligations.PackPlacesEveryByte
  intro idW cmd
  have hb0 := angleByte_toNat cmd.angle32 0
  have hb1 := angleByte_toNat cmd.angle32 1
  rw [pow_zero, Nat.div_one] at hb0
  rw [pow_one] at hb1
  exact ⟨pack_payload_0 cmd, pack_payload_1 cmd, speedLow_toNat _, speedHigh_toNat _,
    hb0, hb1, angleByte_toNat _ 2, angleByte_three_toNat _, pack_arbId cmd⟩

end Sys2Proof.Machine
end

/-! ## DECODE (40_frame_encoder.md R92) -/

section
namespace Sys2Proof.Machine

theorem readBack_eq_none_iff (p : Payload) : readBack p = none ↔ ¬(p[0] = 0xA4#8 ∧ p[1] = 0x00#8) := by
  rw [readBack]
  split <;> simp [*]

/-- Reading back a packed command gives its two fields, the angle as a signed number. -/
theorem readBack_pack {idW : Nat} (cmd : MotorCommand idW) :
    readBack (pack cmd).payload =
      some { speed := cmd.speed16.toNat, centi := cmd.angle32.toInt } := by
  have hspeed : (speedLow cmd.speed16).toNat + (speedHigh cmd.speed16).toNat * 2 ^ 8
      = cmd.speed16.toNat := by
    rw [speedLow_toNat, speedHigh_toNat]
    exact Nat.mod_add_div' _ 256
  rw [readBack, if_pos ⟨pack_payload_0 cmd, pack_payload_1 cmd⟩]
  simp only [pack_payload_2, pack_payload_3, pack_payload_4, pack_payload_5, pack_payload_6,
    pack_payload_7, hspeed, angle_of_bytes]

theorem readBack_enc {angW spdW idW : Nat} (F : Nat) (angle : BitVec angW) (speed : BitVec spdW)
    (id : BitVec idW) :
    readBack (enc F angle speed id).payload =
      some { speed := (speed16 speed).toNat, centi := (wrap32 (scale F angle)).toInt } :=
  readBack_pack (normalise F angle speed id)

/-- The angle field reads back as SCALE's result exactly inside `AngleInRange`. -/
theorem wrap32_scale_toInt_eq_iff {angW : Nat} (F : Nat) (angle : BitVec angW) :
    (wrap32 (scale F angle)).toInt = Int.tdiv (angle.toInt * 100) (2 ^ F) ↔
      AngleInRange F angle.toInt := by
  rw [← scale_eq_tdiv]
  exact wrap32_toInt_eq_iff (scale F angle)

/-- Settles O11: ENC's frame reads back as its two fields, and each field is its input exactly inside the
field's range predicate. -/
theorem readingBackRecoversTheCommand : Obligations.ReadingBackRecoversTheCommand := by
  unfold Obligations.ReadingBackRecoversTheCommand
  refine ⟨fun angW spdW idW F angle speed id => ?_, readBack_eq_none_iff⟩
  have hspeed := speed16_toNat_eq_iff speed
  have hangle := wrap32_scale_toInt_eq_iff F angle
  exact ⟨_, readBack_enc F angle speed id, speed16_toNat speed, rfl, rfl,
    hspeed.mpr, hangle.mpr, mt hspeed.mp, mt hangle.mp⟩

end Sys2Proof.Machine
end

/-! ## BUILD: what ACC gives the encoder (41_sweep_accumulator.md R111) -/

section
namespace Sys2Proof.Machine

/-- The constraint of 00_scope.md R9 that keeps the shifted angle below the sign bit. -/
theorem Params.angle_fits_of_accLegal {P : Params} (hP : P.accLegal = true) :
    P.cntW + P.fracW + 1 ≤ P.angW := by
  rw [Params.accLegal, Bool.and_eq_true, decide_eq_true_eq] at hP
  exact hP.2

section BuildAngle
variable {cntW : Nat} (angW F : Nat) (cur : BitVec cntW)

/-- Zero extension and shift together multiply by `2^F`, at any width. -/
theorem buildAngle_eq_ofNat : buildAngle angW F cur = BitVec.ofNat angW (cur.toNat * 2 ^ F) := by
  apply BitVec.eq_of_toNat_eq
  rw [buildAngle, BitVec.toNat_shiftLeft, BitVec.toNat_setWidth, BitVec.toNat_ofNat,
    Nat.shiftLeft_eq, Nat.mod_mul_mod]

variable {angW F}

/-- Wide enough, the product stays below the sign bit, so nothing is lost and the reading is the
non-negative one. -/
theorem buildAngle_toInt (hw : cntW + F + 1 ≤ angW) :
    (buildAngle angW F cur).toInt = (cur.toNat : Int) * 2 ^ F := by
  have hfit : 2 * (cur.toNat * 2 ^ F) < 2 ^ angW :=
    calc 2 * (cur.toNat * 2 ^ F) < 2 * (2 ^ cntW * 2 ^ F) := by gcongr; exact cur.isLt
      _ = 2 ^ (cntW + F + 1) := by ring
      _ ≤ 2 ^ angW := Nat.pow_le_pow_right (by decide) hw
  have hnat : (buildAngle angW F cur).toNat = cur.toNat * 2 ^ F := by
    rw [buildAngle_eq_ofNat, BitVec.toNat_ofNat, Nat.mod_eq_of_lt (by omega)]
  rw [BitVec.toInt_eq_toNat_of_lt (by rwa [hnat]), hnat, Nat.cast_mul, Nat.cast_pow, Nat.cast_ofNat]

/-- The division by `2^F` undoes the shift exactly, so no truncation happens for any `F`. -/
theorem scale_buildAngle (hw : cntW + F + 1 ≤ angW) :
    scale F (buildAngle angW F cur) = (cur.toNat : Int) * 100 := by
  rw [scale_eq_tdiv, buildAngle_toInt cur hw, mul_right_comm]
  exact Int.mul_tdiv_cancel _ (by positivity)

end BuildAngle

section PortFrame
variable {P : Params} (b : Block P)

theorem Block.portFrame_eq_frameFor : b.portFrame = frameFor P b.pins.cfg b.cur.toNat := by
  rw [Block.portFrame, frameFor, buildAngle_eq_ofNat]

@[simp] theorem Block.portFrame_arbId : b.portFrame.arbId = b.pins.cfg.deviceId := rfl

theorem Block.portFrame_payload_2_toNat :
    b.portFrame.payload[2].toNat = b.pins.cfg.speedLimit.toNat % 256 := by
  have hbyte : b.portFrame.payload[2] = speedLow (speed16 b.pins.cfg.speedLimit) := rfl
  rw [hbyte, speedLow_toNat, speed16_toNat]
  omega

theorem Block.portFrame_payload_3_toNat :
    b.portFrame.payload[3].toNat = b.pins.cfg.speedLimit.toNat / 256 % 256 := by
  have hbyte : b.portFrame.payload[3] = speedHigh (speed16 b.pins.cfg.speedLimit) := rfl
  rw [hbyte, speedHigh_toNat, speed16_toNat]
  omega

end PortFrame

/-- Settles O16: the width of `accLegal` makes the shift exact, SCALE divides it away again, and the rest of
the port's frame is the configuration's. -/
theorem buildPresentsWholeDegrees : Obligations.BuildPresentsWholeDegrees := by
  unfold Obligations.BuildPresentsWholeDegrees
  intro P b hP
  have hw := Params.angle_fits_of_accLegal hP
  exact ⟨buildAngle_toInt b.cur hw, scale_buildAngle b.cur hw, b.portFrame_eq_frameFor,
    b.portFrame_payload_2_toNat, b.portFrame_payload_3_toNat, b.portFrame_arbId⟩

end Sys2Proof.Machine
end

/-! ## The bound is compared with, never stored nor encoded (41_sweep_accumulator.md R115) -/

section
namespace Sys2Proof.Machine

/-- A positive bound is out of the register's reach: the sum is stored only below it, and 0 is below it. -/
theorem advance_toNat_lt_bound {cntW : Nat} (cur stepSize : BitVec cntW) {wrapBound : BitVec cntW}
    (hpos : 0 < wrapBound.toNat) : (advance cur stepSize wrapBound).toNat < wrapBound.toNat := by
  obtain hle | hlt := le_or_gt wrapBound.toNat (cur.toNat + stepSize.toNat)
  · rwa [advance_of_le _ _ _ hle, BitVec.toNat_zero]
  · rwa [advance_toNat_of_lt _ _ _ hlt]

/-- Up to `(2^31 - 1) / 100` degrees the angle field does not wrap, so the port's frame reads back as the
current angle in centidegrees. -/
theorem Block.readBack_portFrame {P : Params} (b : Block P) (hP : P.accLegal = true)
    (hcur : b.cur.toNat ≤ 21474836) :
    readBack b.portFrame.payload =
      some { speed := (speed16 b.pins.cfg.speedLimit).toNat, centi := (b.cur.toNat : Int) * 100 } := by
  have hangle : (wrap32 ((b.cur.toNat : Int) * 100)).toInt = (b.cur.toNat : Int) * 100 :=
    (wrap32_toInt_eq_iff _).mpr ⟨by omega, by omega⟩
  rw [Block.portFrame, readBack_enc, scale_buildAngle b.cur (Params.angle_fits_of_accLegal hP), hangle]

/-- Settles O24: the two branches of the advance give what is stored, and the frame of the old angle, which
the invariant keeps below the bound, reads back as that angle. -/
theorem boundIsNeverStoredNorEncoded : Obligations.BoundIsNeverStoredNorEncoded := by
  unfold Obligations.BoundIsNeverStoredNorEncoded
  intro P b b' hP hrange hbound htick
  rw [Block.InRange] at hrange
  cases (exec_tick b).symm.trans htick
  refine ⟨fun hle => ?_, advance_toNat_of_lt _ _ _, advance_toNat_lt_bound _ _ (by omega),
    b.portFrame, _, b.ticked_emitted, b.readBack_portFrame hP (by omega), rfl, ?_⟩
  · rw [Block.ticked_cur, advance_of_le _ _ _ hle, BitVec.toNat_zero]
  · show (b.cur.toNat : Int) * 100 < _
    omega

end Sys2Proof.Machine
end

/-! ## Dispatch: one frame per TICK step, none in any other step (42_dispatch.md R141) -/

section
namespace Sys2Proof.Machine

variable {P : Params} {b b' : Block P}

theorem Pins.selectsTick_iff (p : Pins P) :
    p.selectsTick = true ↔ p.drive = .control ∧ p.rst = false ∧ p.tick = true := by
  simp [Pins.selectsTick, and_assoc]

theorem Block.frameValid_iff (b : Block P) :
    b.frameValid = true ↔ b.pins.drive = .control ∧ b.pins.rst = false ∧ b.pins.tick = true :=
  b.pins.selectsTick_iff

/-- `frame_valid` says whether the step adds to the record of the port; what it adds is the port's frame. -/
theorem StepCase.emitted_eq (h : StepCase b b') :
    b'.emitted = if b.frameValid then b.emitted ++ [b.portFrame] else b.emitted := by
  cases h with
  | tick hd hr ht => rw [if_pos (b.frameValid_iff.mpr ⟨hd, hr, ht⟩), Block.ticked_emitted]
  | reset hd hr => rw [if_neg (by simp [b.frameValid_iff, hr]), Block.setCur_emitted]
  | hold hd hr ht => rw [if_neg (by simp [b.frameValid_iff, ht])]
  | encoder hd => rw [if_neg (by simp [b.frameValid_iff, hd]), Block.output_emitted]
  | frame w hd => rw [if_neg (by simp [b.frameValid_iff, hd]), Block.output_emitted]

/-- The pins of the next step add no frame, so the same holds of a whole step. -/
theorem step_emitted (h : step ⟨P, b⟩ = .next ⟨P, b'⟩) :
    b'.emitted = if b.frameValid then b.emitted ++ [b.portFrame] else b.emitted := by
  obtain ⟨c, hc, heq⟩ := step_next_cases b h
  cases heq
  rw [Block.nextPins_emitted, hc.emitted_eq]

/-- Settles O32: `frame_valid` is high exactly in a TICK step, and it alone decides whether the step adds the
frame that the port shows, which is that of the current angle. -/
theorem framesLeaveOnlyInTickSteps : Obligations.FramesLeaveOnlyInTickSteps := by
  unfold Obligations.FramesLeaveOnlyInTickSteps
  intro P b b' hstep
  have hadded := step_emitted hstep
  constructor
  · intro hd hr ht
    have hvalid : b.frameValid = true := b.frameValid_iff.mpr ⟨hd, hr, ht⟩
    rw [if_pos hvalid] at hadded
    exact ⟨hvalid, b.portFrame, hadded, rfl, rfl, b.portFrame_eq_frameFor⟩
  · intro hno
    have hlow : ¬b.frameValid = true := mt b.frameValid_iff.mp hno
    rw [if_neg hlow] at hadded
    exact ⟨Bool.eq_false_of_not_eq_true hlow, hadded⟩

end Sys2Proof.Machine
end

/-! ## Nothing on the pins stops the block (60_exceptions.md R150) -/

section
namespace Sys2Proof.Machine

variable {P : Params} {b : Block P}

/-- The table of cause codes is empty (R150), so there is no cause a step could stop with. -/
theorem step_ne_fault (s : State) (r : Fault) : step s ≠ .fault r := nomatch r

/-- A refusal comes from a raw word only, so a step on the hardware's own pins has a next state, with the
same parameters. -/
theorem step_next_of_no_raw_word (hpins : ∀ w, b.pins.drive ≠ .frame w) :
    ∃ b' : Block P, step ⟨P, b⟩ = .next ⟨P, b'⟩ := by
  cases hstep : step ⟨P, b⟩ with
  | next t =>
    obtain ⟨c, -, rfl⟩ := step_next_cases b hstep
    exact ⟨c.nextPins, rfl⟩
  | fault r => exact absurd hstep (step_ne_fault _ r)
  | refused r =>
    obtain ⟨w, hraw, -⟩ := step_refused_frame b hstep
    exact absurd hraw (hpins w)

/-- Settles O31: without a raw word nothing is refused, nothing ever faults, and in a TICK step, where
`frame_valid` is high, the port's frame is added. -/
theorem nothingOnThePinsStopsTheBlock : Obligations.NothingOnThePinsStopsTheBlock := by
  unfold Obligations.NothingOnThePinsStopsTheBlock
  refine ⟨fun P b hpins => ?_, step_ne_fault⟩
  obtain ⟨b', hstep⟩ := step_next_of_no_raw_word hpins
  refine ⟨b', hstep, fun htick => ⟨b.portFrame, ?_⟩⟩
  have hvalid : b.frameValid = true := htick
  rw [step_emitted hstep, if_pos hvalid]

end Sys2Proof.Machine
end

/-! ## RESET (70_reset_and_hazards.md R171) -/

section
namespace Sys2Proof.Machine

variable {P : Params} (b : Block P)

/-- Of two writes to `cur` the later one stands. -/
@[simp] theorem Block.setCur_setCur (u v : BitVec P.cntW) : (b.setCur u).setCur v = b.setCur v := rfl

/-- RESET is idempotent, whatever the `tick` pin is in either of the two steps. -/
theorem exec_reset_setCur_zero (t : Bool) :
    exec (.reset t) ⟨P, b.setCur 0#_⟩ = .next ⟨P, b.setCur 0#_⟩ := by
  rw [exec_reset, Block.setCur_setCur]

theorem Block.frameValid_of_rst (hr : b.pins.rst = true) : b.frameValid = false := by
  refine Bool.eq_false_of_not_eq_true fun hvalid => ?_
  obtain ⟨-, hlow, -⟩ := b.frameValid_iff.mp hvalid
  exact Bool.noConfusion (hlow.symm.trans hr)

/-- With `rst` high a clock cycle decodes to RESET, which carries the `tick` pin along. -/
theorem decode_fetch_of_rst (hd : b.pins.drive = .control) (hr : b.pins.rst = true) :
    decode b.fetch = .ok (.reset b.pins.tick) := by
  rw [decode_fetch_control b hd, if_pos hr]

/-- Settles O26: RESET is one write of 0 to `cur`, which touches no other field and which a second RESET
repeats; `rst` high decodes to it and keeps `frame_valid` low. -/
theorem resetZeroesTheAngle : Obligations.ResetZeroesTheAngle := by
  unfold Obligations.ResetZeroesTheAngle
  constructor
  · intro t t' P b
    refine ⟨b.setCur 0#_, exec_reset b t, ?_, b.setCur_emitted _, b.setCur_encoded _, b.setCur_pins _,
      b.setCur_future _, exec_reset_setCur_zero b t'⟩
    rw [Block.setCur_cur, BitVec.toNat_zero]
  · intro P b hd hr
    exact ⟨b.frameValid_of_rst hr, step_of_decode b (decode_fetch_of_rst b hd hr)⟩

end Sys2Proof.Machine
end

/-! ## Decode and encode invert one another (30_encoding.md sections 1, 3, 4) -/

section
namespace Sys2Proof.Machine

theorem decode_encode (i : Instr) : decode (encode i) = .ok i := by
  cases i with
  | posctlSpd speed angle => exact Laws.RoundTrip.posctlSpd speed angle
  | reset t => exact Laws.RoundTrip.reset t
  | tick => exact Laws.RoundTrip.tick
  | hold => exact Laws.RoundTrip.hold

/-- A byte whose upper six bits are 0 is the two control pins in its lowest bits. -/
theorem eq_ctrlByte_of_upper_zero {c : Byte} (h : c.extractLsb' 2 6 = 0#6) :
    c = ctrlByte (c.getLsbD 1) (c.getLsbD 0) := by
  revert c
  decide

theorem encode_of_decodeCtrl {c : Byte} {i : Instr} (h : decodeCtrl c = .ok i) : encode i = [c] := by
  by_cases hup : c.extractLsb' 2 6 = 0#6
  · have hpins := eq_ctrlByte_of_upper_zero hup
    rw [hpins] at h ⊢
    have hi : i = if c.getLsbD 1 then .reset (c.getLsbD 0) else if c.getLsbD 0 then .tick else .hold :=
      Except.ok.inj (h.symm.trans (decode_ctrlByte _ _))
    rw [hi]
    cases c.getLsbD 1 <;> cases c.getLsbD 0 <;> rfl
  · rw [decodeCtrl, if_pos hup] at h
    cases h

/-- Joining two words multiplies the upper one by the weight of the lower one's width. -/
theorem toNat_append_eq_add {m n : Nat} (x : BitVec m) (y : BitVec n) :
    (x ++ y).toNat = x.toNat * 2 ^ n + y.toNat := by
  rw [BitVec.toNat_append, ← Nat.shiftLeft_add_eq_or_of_lt y.isLt, Nat.shiftLeft_eq]

theorem byteOf_toNat {n : Nat} (v : BitVec n) (j : Nat) :
    (byteOf v j).toNat = v.toNat / 256 ^ j % 256 := by
  rw [byteOf, BitVec.extractLsb'_toNat, Nat.shiftRight_eq_div_pow, Nat.pow_mul]

/-- Each byte of two joined ones is found again at its place. -/
theorem byteOf_append_two (hi lo : Byte) :
    byteOf (hi ++ lo) 0 = lo ∧ byteOf (hi ++ lo) 1 = hi :=
  ⟨BitVec.extractLsb'_append_eq_right, BitVec.extractLsb'_append_eq_left⟩

/-- Each byte of four joined ones is found again at its place. -/
theorem byteOf_append_four (b3 b2 b1 b0 : Byte) :
    byteOf (b3 ++ b2 ++ b1 ++ b0) 0 = b0 ∧ byteOf (b3 ++ b2 ++ b1 ++ b0) 1 = b1 ∧
    byteOf (b3 ++ b2 ++ b1 ++ b0) 2 = b2 ∧ byteOf (b3 ++ b2 ++ b1 ++ b0) 3 = b3 := by
  refine ⟨?_, ?_, ?_, ?_⟩ <;> apply BitVec.eq_of_toNat_eq <;>
    simp only [byteOf_toNat, toNat_append_eq_add] <;> omega

theorem encode_of_decodeFrame8 {p0 p1 p2 p3 p4 p5 p6 p7 : Byte} {i : Instr}
    (h : decodeFrame8 p0 p1 p2 p3 p4 p5 p6 p7 = .ok i) :
    encode i = [p0, p1, p2, p3, p4, p5, p6, p7] := by
  rw [decodeFrame8] at h
  split at h
  · cases h
  split at h
  · cases h
  next hop hres =>
    cases h
    obtain ⟨hs0, hs1⟩ := byteOf_append_two p3 p2
    obtain ⟨ha0, ha1, ha2, ha3⟩ := byteOf_append_four p7 p6 p5 p4
    rw [not_not.mp hop, not_not.mp hres, encode, ha0, ha1, ha2, ha3]
    exact congrArg₂ (fun l h => [0xA4#8, 0x00#8, l, h, p4, p5, p6, p7]) hs0 hs1

/-- The decoder accepts nothing but encodings: there is no second spelling of an instruction. -/
theorem encode_of_decode {bytes : List Byte} {i : Instr} (h : decode bytes = .ok i) :
    encode i = bytes := by
  unfold decode at h
  split at h
  · exact encode_of_decodeCtrl h
  · exact encode_of_decodeFrame8 h
  · cases h

/-- Settles O37: every encoding decodes, and what decodes to an instruction is its encoding. -/
theorem decodeExactlyInvertsEncode : Obligations.DecodeExactlyInvertsEncode := by
  unfold Obligations.DecodeExactlyInvertsEncode
  refine fun bytes i => ⟨fun h => (encode_of_decode h).symm, ?_⟩
  rintro rfl
  exact decode_encode i

end Sys2Proof.Machine
end

/-! ## What a whole step does to the angle, the pins and the configuration -/

section
namespace Sys2Proof.Machine

variable {P : Params} {b b' : Block P}

theorem Pins.selectsReset_iff (p : Pins P) :
    p.selectsReset = true ↔ p.drive = .control ∧ p.rst = true := by
  simp [Pins.selectsReset]

/-- `cur` is written by TICK and RESET only (10_state.md section 1). -/
theorem StepCase.cur_eq (h : StepCase b b') :
    b'.cur = if b.pins.selectsTick then advance b.cur b.pins.cfg.stepSize b.pins.cfg.wrapBound
      else if b.pins.selectsReset then 0#_ else b.cur := by
  cases h with
  | reset hd hr =>
    rw [if_neg (by simp [b.pins.selectsTick_iff, hr]), if_pos (b.pins.selectsReset_iff.mpr ⟨hd, hr⟩),
      Block.setCur_cur]
  | tick hd hr ht => rw [if_pos (b.pins.selectsTick_iff.mpr ⟨hd, hr, ht⟩), Block.ticked_cur]
  | hold hd hr ht =>
    rw [if_neg (by simp [b.pins.selectsTick_iff, ht]), if_neg (by simp [b.pins.selectsReset_iff, hr])]
  | encoder hd =>
    rw [if_neg (by simp [b.pins.selectsTick_iff, hd]), if_neg (by simp [b.pins.selectsReset_iff, hd]),
      Block.output_cur]
  | frame w hd =>
    rw [if_neg (by simp [b.pins.selectsTick_iff, hd]), if_neg (by simp [b.pins.selectsReset_iff, hd]),
      Block.output_cur]

/-- The pins of the next step leave `cur` alone, so the same holds of a whole step. -/
theorem step_cur (h : step ⟨P, b⟩ = .next ⟨P, b'⟩) :
    b'.cur = if b.pins.selectsTick then advance b.cur b.pins.cfg.stepSize b.pins.cfg.wrapBound
      else if b.pins.selectsReset then 0#_ else b.cur := by
  obtain ⟨c, hc, heq⟩ := step_next_cases b h
  cases heq
  rw [Block.nextPins_cur, hc.cur_eq]

/-- Whatever a step does, the environment's pins move on by one. -/
theorem step_pins_future (h : step ⟨P, b⟩ = .next ⟨P, b'⟩) :
    b'.pins = b.nextPins.pins ∧ b'.future = b.nextPins.future := by
  obtain ⟨c, hc, heq⟩ := step_next_cases b h
  cases heq
  obtain ⟨hpins, hfuture⟩ := hc.pins_future
  exact Block.nextPins_congr hpins hfuture

/-- No step changes the parameters. -/
theorem step_next_params {t : State} (h : step ⟨P, b⟩ = .next t) : ∃ b' : Block P, t = ⟨P, b'⟩ := by
  obtain ⟨c, -, heq⟩ := step_next_cases b h
  exact ⟨c.nextPins, heq⟩

/-- A constant configuration stays constant over a step, and is the same one. -/
theorem Block.ConstantCfg.step (hc : b.ConstantCfg) (h : Machine.step ⟨P, b⟩ = .next ⟨P, b'⟩) :
    b'.ConstantCfg ∧ b'.pins.cfg = b.pins.cfg := by
  obtain ⟨hpins, hfuture⟩ := step_pins_future h
  obtain ⟨hcfg, hconst⟩ := hc.nextPins
  exact ⟨hconst.congr hpins.symm hfuture.symm, by rw [hpins, hcfg]⟩

end Sys2Proof.Machine
end

/-! ## The angle stays below the bound (10_state.md R35) -/

section
namespace Sys2Proof.Machine

variable {P : Params} {b b' : Block P}

/-- TICK stores a value below a positive bound, RESET stores 0, and every other step keeps `cur`. -/
theorem step_cur_lt_bound (hrange : b.InRange) (h : step ⟨P, b⟩ = .next ⟨P, b'⟩) :
    b'.cur.toNat < b.pins.cfg.wrapBound.toNat := by
  have hpos : 0 < b.pins.cfg.wrapBound.toNat := Nat.zero_lt_of_lt hrange
  rw [step_cur h]
  split
  · exact advance_toNat_lt_bound _ _ hpos
  split
  · rwa [BitVec.toNat_zero]
  · exact hrange

/-- Settles O40: the bound the new angle is compared with is the old one, and the new angle is below it. -/
theorem everyStepKeepsTheAngleInRange : Obligations.EveryStepKeepsTheAngleInRange := by
  unfold Obligations.EveryStepKeepsTheAngleInRange
  rintro ⟨P, b⟩ s' ⟨hconst, hrange⟩ hstep
  obtain ⟨b', rfl⟩ := step_next_params hstep
  obtain ⟨hconst', hcfg⟩ := hconst.step hstep
  refine ⟨hconst', ?_⟩
  have hlt := step_cur_lt_bound hrange hstep
  rwa [← hcfg] at hlt

/-- Settles O41: the configuration is constant because no later pins are listed, and 0 is below 360. -/
theorem resetStateMeetsTheAngleRange : Obligations.ResetStateMeetsTheAngleRange := by
  unfold Obligations.ResetStateMeetsTheAngleRange
  decide

end Sys2Proof.Machine
end

/-! ## The sweep's closed form, one tick at a time (41_sweep_accumulator.md R117) -/

section
namespace Sys2Proof.Machine

section Arithmetic
variable {s w : Nat}

/-- The period is the least number of steps that reaches the bound. -/
theorem period_le_iff (hs : 1 ≤ s) (m : Nat) : period s w ≤ m ↔ w ≤ m * s := by
  rw [mul_comm]
  exact ceilDiv_le_iff_le_mul hs

theorem period_pos (hs : 1 ≤ s) (hw : 1 ≤ w) : 1 ≤ period s w := by
  have hzero := period_le_iff (w := w) hs 0
  omega

/-- The first tick of the sweep, and every tick a whole number of periods later, has angle 0. -/
theorem sweepAngle_zero : sweepAngle s w 0 = 0 := by
  rw [sweepAngle, Nat.zero_mod, Nat.zero_mul]

theorem sweepAngle_le (hs : 1 ≤ s) (hw : 1 ≤ w) (k : Nat) :
    sweepAngle s w k ≤ (period s w - 1) * s := by
  have hlt : k % period s w < period s w := Nat.mod_lt k (period_pos hs hw)
  exact Nat.mul_le_mul_right s (by omega)

/-- The next angle is one step further, unless that reaches the bound, where the sweep begins anew. -/
theorem sweepAngle_succ (hs : 1 ≤ s) (hw : 1 ≤ w) (k : Nat) :
    sweepAngle s w (k + 1) =
      if w ≤ sweepAngle s w k + s then 0 else sweepAngle s w k + s := by
  have hlt : k % period s w < period s w := Nat.mod_lt k (period_pos hs hw)
  have hreach : w ≤ sweepAngle s w k + s ↔ period s w ≤ k % period s w + 1 := by
    rw [period_le_iff hs, sweepAngle, Nat.succ_mul]
  have hnext : sweepAngle s w (k + 1) = (k % period s w + 1) % period s w * s := by
    rw [sweepAngle, Nat.mod_add_mod]
  rw [hnext]
  split
  case isTrue hle =>
    have hlast : k % period s w + 1 = period s w := le_antisymm hlt (hreach.mp hle)
    rw [hlast, Nat.mod_self, Nat.zero_mul]
  case isFalse hlow =>
    rw [Nat.mod_eq_of_lt (not_le.mp (mt hreach.mpr hlow)), Nat.succ_mul, sweepAngle]

end Arithmetic

/-- ADVANCE moves an angle of the sweep to the next one. -/
theorem advance_sweepAngle {cntW : Nat} {cur stepSize wrapBound : BitVec cntW} {k : Nat}
    (hs : 1 ≤ stepSize.toNat) (hw : 1 ≤ wrapBound.toNat)
    (hcur : cur.toNat = sweepAngle stepSize.toNat wrapBound.toNat k) :
    (advance cur stepSize wrapBound).toNat = sweepAngle stepSize.toNat wrapBound.toNat (k + 1) := by
  rw [sweepAngle_succ hs hw, ← hcur]
  split
  case isTrue hle => rw [advance_of_le _ _ _ hle, BitVec.toNat_zero]
  case isFalse hlt => exact advance_toNat_of_lt _ _ _ (not_le.mp hlt)

/-- The position on the sweep after a step: TICK moves it on, RESET puts it back to the start. -/
def Block.nextTick {P : Params} (b : Block P) (k : Nat) : Nat :=
  if b.pins.selectsTick then k + 1 else if b.pins.selectsReset then 0 else k

theorem step_cur_sweepAngle {P : Params} {b b' : Block P} {k : Nat}
    (hs : 1 ≤ b.pins.cfg.stepSize.toNat) (hw : 1 ≤ b.pins.cfg.wrapBound.toNat)
    (hcur : b.cur.toNat = sweepAngle b.pins.cfg.stepSize.toNat b.pins.cfg.wrapBound.toNat k)
    (h : step ⟨P, b⟩ = .next ⟨P, b'⟩) :
    b'.cur.toNat = sweepAngle b.pins.cfg.stepSize.toNat b.pins.cfg.wrapBound.toNat (b.nextTick k) := by
  rw [step_cur h, Block.nextTick]
  split
  · exact advance_sweepAngle hs hw hcur
  split
  · rw [sweepAngle_zero, BitVec.toNat_zero]
  · exact hcur

/-- Settles O53: the configuration is kept by every step, and the angle moves as `advance_sweepAngle` says. -/
theorem everyStepMovesAlongTheSweep : Obligations.EveryStepMovesAlongTheSweep := by
  unfold Obligations.EveryStepMovesAlongTheSweep
  intro P b b' k hconst hs hw hcur hstep
  obtain ⟨hconst', hcfg⟩ := hconst.step hstep
  exact ⟨hconst', hcfg, step_cur_sweepAngle hs hw hcur hstep⟩

end Sys2Proof.Machine
end

/-! ## The flat payload as a number (20_memory.md section 5, 40_frame_encoder.md section 6) -/

section
namespace Sys2Proof.Machine

theorem extractLsb'_toNat_eq_div {n : Nat} (x : BitVec n) (start len : Nat) :
    (x.extractLsb' start len).toNat = x.toNat / 2 ^ start % 2 ^ len := by
  rw [BitVec.extractLsb'_toNat, Nat.shiftRight_eq_div_pow]

/-- The flat port of any payload, byte by byte. -/
theorem flat_toNat (p : Payload) :
    (flat p).toNat = p[0].toNat + p[1].toNat * 2 ^ 8 + p[2].toNat * 2 ^ 16 + p[3].toNat * 2 ^ 24
      + p[4].toNat * 2 ^ 32 + p[5].toNat * 2 ^ 40 + p[6].toNat * 2 ^ 48 + p[7].toNat * 2 ^ 56 := by
  simp only [flat, toNat_append_eq_add]
  omega

/-- The flat port of a packed command: the constant bytes, then the two fields at bits 16 and 32. -/
theorem flat_pack_toNat {idW : Nat} (cmd : MotorCommand idW) :
    (flat (pack cmd).payload).toNat = 0xA4 + cmd.speed16.toNat * 2 ^ 16 + cmd.angle32.toNat * 2 ^ 32 := by
  rw [flat_pack]
  simp only [toNat_append_eq_add, BitVec.toNat_ofNat]
  omega

/-- Bits `[8i+7:8i]` of the flat port are the `i`-th summand of `flat_toNat`. -/
theorem flat_extract_byte (p : Payload) (i : Fin 8) : (flat p).extractLsb' (8 * i.val) 8 = p[i] := by
  apply BitVec.eq_of_toNat_eq
  rw [extractLsb'_toNat_eq_div, flat_toNat]
  fin_cases i <;> simp only [Fin.getElem_fin] <;> omega

/-- Settles O7: the flat number has the bytes as its digits in base 256. -/
theorem flatPortHoldsByteI : Obligations.FlatPortHoldsByteI := by
  unfold Obligations.FlatPortHoldsByteI
  exact ⟨flat_extract_byte, fun _ => flat_pack_toNat⟩

/-- Settles O8: the bytes of each field are its digits in base 256, least significant first. -/
theorem fieldsAreLittleEndian : Obligations.FieldsAreLittleEndian := by
  unfold Obligations.FieldsAreLittleEndian
  intro idW cmd q
  have hq2 : q 2 = cmd.speed16.toNat % 256 := speedLow_toNat _
  have hq3 : q 3 = cmd.speed16.toNat / 256 := speedHigh_toNat _
  have hq4 : q 4 = cmd.angle32.toNat / 256 ^ 0 % 256 := angleByte_toNat _ 0
  have hq5 : q 5 = cmd.angle32.toNat / 256 ^ 1 % 256 := angleByte_toNat _ 1
  have hq6 : q 6 = cmd.angle32.toNat / 256 ^ 2 % 256 := angleByte_toNat _ 2
  have hq7 : q 7 = cmd.angle32.toNat / 256 ^ 3 := angleByte_three_toNat _
  rw [hq2, hq3, hq4, hq5, hq6, hq7]
  refine ⟨?_, ?_, ?_⟩ <;> omega

section Enc
variable {angW spdW idW : Nat} (F : Nat) (angle : BitVec angW) (speed : BitVec spdW) (id : BitVec idW)

@[simp] theorem enc_arbId : (enc F angle speed id).arbId = id := rfl

/-- ENCODE as one formula, the angle being SCALE's result modulo `2^32`. -/
theorem flat_enc_toNat :
    ((flat (enc F angle speed id).payload).toNat : Int) =
      0xA4 + (speed.toNat % 2 ^ 16 : Nat) * 2 ^ 16 + scale F angle % 2 ^ 32 * 2 ^ 32 := by
  rw [enc_eq_pack, flat_pack_toNat, normalise_speed16, normalise_angle32, speed16_toNat, ← wrap32_toNat]
  push_cast
  rfl

end Enc

/-- Settles O9: `flat_enc_toNat` with SCALE written out. -/
theorem encodeIsOneFormula : Obligations.EncodeIsOneFormula := by
  unfold Obligations.EncodeIsOneFormula
  intro angW spdW idW F angle speed id
  refine ⟨enc_arbId F angle speed id, ?_⟩
  rw [flat_enc_toNat, scale_eq_tdiv]

/-- Settles O6: the port shows a packed command, whose flat number has the fields at these bits. -/
theorem frameFieldsStandAtTheirBits : Obligations.FrameFieldsStandAtTheirBits := by
  unfold Obligations.FrameFieldsStandAtTheirBits
  intro P b
  have hflat : b.payload.toNat = 0xA4 + (speed16 b.pins.cfg.speedLimit).toNat * 2 ^ 16
      + (wrap32 (scale P.fracW (buildAngle P.angW P.fracW b.cur))).toNat * 2 ^ 32 := flat_pack_toNat _
  have hspeed := (speed16 b.pins.cfg.speedLimit).isLt
  refine ⟨BitVec.eq_of_toNat_eq ?_, BitVec.eq_of_toNat_eq ?_, ?_, BitVec.eq_of_toNat_eq ?_,
    b.portFrame_arbId⟩
  all_goals
    simp only [extractLsb'_toNat_eq_div, hflat, BitVec.toNat_ofNat, ← speed16_toNat]
    omega

end Sys2Proof.Machine
end

/-! ## What ENC merges (40_frame_encoder.md sections 2, 3, 6) -/

section
namespace Sys2Proof.Machine

/-- PACK loses nothing: the two fields and the identifier can be read off the frame. -/
theorem pack_inj {idW : Nat} {c c' : MotorCommand idW} :
    pack c = pack c' ↔ c.speed16 = c'.speed16 ∧ c.angle32 = c'.angle32 ∧ c.id = c'.id := by
  constructor
  · intro h
    have hflat := congrArg (fun f => (flat f.payload).toNat) h
    simp only [flat_pack_toNat] at hflat
    have hs := c.speed16.isLt
    have hs' := c'.speed16.isLt
    exact ⟨BitVec.eq_of_toNat_eq (by omega), BitVec.eq_of_toNat_eq (by omega), congrArg CanFrame.arbId h⟩
  · obtain ⟨a, s, i⟩ := c
    rintro ⟨rfl, rfl, rfl⟩
    rfl

theorem speed16_eq_iff {spdW : Nat} (v v' : BitVec spdW) :
    speed16 v = speed16 v' ↔ v.toNat % 2 ^ 16 = v'.toNat % 2 ^ 16 := by
  rw [← BitVec.toNat_inj, speed16_toNat, speed16_toNat]

theorem wrap32_eq_iff (c c' : Int) : wrap32 c = wrap32 c' ↔ c % 2 ^ 32 = c' % 2 ^ 32 := by
  rw [← wrap32_toNat, ← wrap32_toNat, Int.natCast_inj, BitVec.toNat_inj]

/-- Settles O10: PACK is injective, so only the two masks of NORMALISE merge inputs. -/
theorem encodeMergesOnlyWhatTheMasksMerge : Obligations.EncodeMergesOnlyWhatTheMasksMerge := by
  unfold Obligations.EncodeMergesOnlyWhatTheMasksMerge
  intro angW spdW idW F a a' v v' i i'
  rw [enc_eq_pack, enc_eq_pack, pack_inj, normalise_speed16, normalise_speed16, normalise_angle32,
    normalise_angle32, normalise_id, normalise_id, speed16_eq_iff, wrap32_eq_iff]

end Sys2Proof.Machine
end

/-! ## The truncation error (40_frame_encoder.md section 7) -/

section
namespace Sys2Proof.Machine

theorem roundTowardZero_bounds_of_nonneg {x : ℚ} (hx : 0 ≤ x) :
    0 ≤ (roundTowardZero x : ℚ) ∧ (roundTowardZero x : ℚ) ≤ x ∧ x < roundTowardZero x + 1 := by
  rw [roundTowardZero_eq_ite_floor, if_pos hx]
  exact ⟨Int.cast_nonneg (Int.floor_nonneg.mpr hx), Int.floor_le x, Int.lt_floor_add_one x⟩

/-- Rounding toward zero is symmetric, so a negative number is rounded as its magnitude is. -/
theorem roundTowardZero_neg_of_pos {x : ℚ} (hx : 0 < x) : roundTowardZero (-x) = -roundTowardZero x := by
  rw [roundTowardZero_eq_ite_floor, roundTowardZero_eq_ite_floor, if_neg (by linarith), if_pos hx.le, neg_neg]

theorem roundTowardZero_bounds_of_neg {x : ℚ} (hx : x < 0) :
    (roundTowardZero x : ℚ) ≤ 0 ∧ x ≤ roundTowardZero x ∧ (roundTowardZero x : ℚ) - 1 < x := by
  have hpos : 0 < -x := neg_pos.mpr hx
  obtain ⟨hnonneg, hle, hlt⟩ := roundTowardZero_bounds_of_nonneg hpos.le
  have hround := roundTowardZero_neg_of_pos hpos
  rw [neg_neg] at hround
  rw [hround, Int.cast_neg]
  exact ⟨by linarith, by linarith, by linarith⟩

/-- Inside the range the value read back is the angle in centidegrees, rounded toward zero. -/
theorem centi_of_readBack_enc {angW spdW idW F : Nat} {angle : BitVec angW} {speed : BitVec spdW}
    {id : BitVec idW} {r : ReadBack} (hrange : AngleInRange F angle.toInt)
    (hr : readBack (enc F angle speed id).payload = some r) : r.centi = scale F angle := by
  rw [readBack_enc, Option.some_inj] at hr
  rw [← hr, (wrap32_scale_toInt_eq_iff F angle).mpr hrange, scale_eq_tdiv]

/-- Settles O12: what is read back is `a * 100` rounded toward zero, less than one centidegree nearer to
zero than `a`. -/
theorem readBackErrorIsBelowOneCentidegree : Obligations.ReadBackErrorIsBelowOneCentidegree := by
  unfold Obligations.ReadBackErrorIsBelowOneCentidegree
  intro angW spdW idW F angle speed id r hrange hr a
  have hcenti := centi_of_readBack_enc hrange hr
  have hround : r.centi = roundTowardZero (a * 100) := hcenti.trans (scale_eq_roundTowardZero F angle)
  have hdeg : r.degrees = (r.centi : ℚ) / 100 := rfl
  have hpos : 0 ≤ a → 0 ≤ r.degrees ∧ r.degrees ≤ a ∧ a - r.degrees < 1 / 100 := fun ha => by
    obtain ⟨hnonneg, hle, hlt⟩ := roundTowardZero_bounds_of_nonneg (x := a * 100) (by linarith)
    rw [← hround] at hnonneg hle hlt
    rw [hdeg]
    exact ⟨by linarith, by linarith, by linarith⟩
  have hneg : a < 0 → r.degrees ≤ 0 ∧ a ≤ r.degrees ∧ -(1 / 100) < a - r.degrees := fun ha => by
    obtain ⟨hnonpos, hle, hlt⟩ := roundTowardZero_bounds_of_neg (x := a * 100) (by linarith)
    rw [← hround] at hnonpos hle hlt
    rw [hdeg]
    exact ⟨by linarith, by linarith, by linarith⟩
  refine ⟨fun ha => ?_, fun ha => ?_, ?_, ?_⟩
  · obtain ⟨-, hle, hlt⟩ := hpos ha
    exact ⟨by linarith, hlt⟩
  · obtain ⟨-, hle, hlt⟩ := hneg ha
    exact ⟨hlt, by linarith⟩
  · obtain ha | ha := le_or_gt 0 a
    · obtain ⟨hnonneg, hle, -⟩ := hpos ha
      exact abs_le_abs_of_nonneg hnonneg hle
    · obtain ⟨hnonpos, hle, -⟩ := hneg ha
      exact abs_le_abs_of_nonpos hnonpos hle
  · rintro rfl
    rw [scale_zero_frac] at hcenti
    rw [hdeg, hcenti]
    simp [a]

/-- Settles O15: nothing is divided, so the range of the product is that of the field. -/
theorem wholeDegreeRangeIsTheSpecsRange : Obligations.WholeDegreeRangeIsTheSpecsRange := by
  unfold Obligations.WholeDegreeRangeIsTheSpecsRange
  intro A
  have hwhole : tdiv (A * 100) ((2 ^ 0 : Nat) : Int) = A * 100 := Int.tdiv_one _
  rw [AngleInRange, hwhole]
  omega

end Sys2Proof.Machine
end

/-! ## Realisations of SCALE (40_frame_encoder.md section 8) -/

section
namespace Sys2Proof.Machine

/-- Adding one less than the divisor turns the floor of a quotient into its ceiling. -/
theorem add_sub_one_ediv_eq_neg_ediv {d : Int} (hd : 0 < d) (p : Int) :
    (p + (d - 1)) / d = -(-p / d) := by
  have hsplit : -p % d + d * (-p / d) = -p := Int.emod_add_mul_ediv (-p) d
  have hlo : 0 ≤ -p % d := Int.emod_nonneg (-p) hd.ne'
  have hhi : -p % d < d := Int.emod_lt_of_pos (-p) hd
  have hunique : (p + (d - 1)) / d = -(-p / d) ∧ (p + (d - 1)) % d = d - 1 - -p % d :=
    (Int.ediv_emod_unique hd).mpr ⟨by linarith, by omega, by omega⟩
  exact hunique.1

/-- The bias is added exactly where rounding toward zero is rounding up. -/
theorem tdivByShift_eq_tdiv (p : Int) (F : Nat) : tdivByShift p F = tdiv p (2 ^ F) := by
  rw [tdivByShift, Int.shiftRight_eq_div_pow, tdiv_eq_ite, Nat.cast_pow, Nat.cast_ofNat]
  by_cases hp : p < 0
  · rw [if_pos hp, if_neg (not_le.mpr hp), add_sub_one_ediv_eq_neg_ediv (by positivity)]
  · rw [if_neg hp, if_pos (not_lt.mp hp), add_zero]

/-- A number that fits a signed word is what the word reads as. -/
theorem toInt_ofNat_of_lt {n k : Nat} (h : 2 * k < 2 ^ n) : (BitVec.ofNat n k).toInt = k := by
  rw [BitVec.toInt_ofNat', Int.bmod_eq_of_le (by omega) (by omega)]

section ScaleByShift
variable {angW n : Nat}

/-- The room that `ANG_W + 8` bits leave: the product, the bias and their sum are all below half the range. -/
theorem shift_width_bounds {F : Nat} (angle : BitVec angW) (hF : F < angW) (hn : angW + 8 ≤ n) :
    ∃ m : Nat, 2 ^ F ≤ m ∧ 512 * m ≤ 2 ^ n ∧ -(m : Int) ≤ angle.toInt ∧ angle.toInt < m := by
  refine ⟨2 ^ (angW - 1), Nat.pow_le_pow_right (by decide) (by omega), ?_, ?_, ?_⟩
  · calc 512 * 2 ^ (angW - 1) = 2 ^ (9 + (angW - 1)) := by rw [pow_add]; norm_num
      _ ≤ 2 ^ n := Nat.pow_le_pow_right (by decide) (by omega)
  · exact_mod_cast BitVec.le_toInt angle
  · exact_mod_cast BitVec.toInt_lt (x := angle)

/-- The product at `n` bits is exact. -/
theorem toInt_product (angle : BitVec angW) (hpos : 0 < angW) (hn : angW + 8 ≤ n) :
    (angle.signExtend n * 100#n).toInt = angle.toInt * 100 := by
  obtain ⟨m, hF, hm, hlo, hhi⟩ := shift_width_bounds (F := 0) angle hpos hn
  rw [BitVec.toInt_mul, BitVec.toInt_signExtend_of_le (by omega), toInt_ofNat_of_lt (by omega),
    Int.bmod_eq_of_le (by omega) (by omega)]
  rfl

theorem toInt_scaleByShift {F : Nat} (angle : BitVec angW) (hF : F < angW) (hn : angW + 8 ≤ n) :
    (scaleByShift n F angle).toInt = tdivByShift (angle.toInt * 100) F := by
  have hprod := toInt_product angle (by omega) hn
  obtain ⟨m, hbias, hm, hlo, hhi⟩ := shift_width_bounds angle hF hn
  have hbit : (BitVec.ofNat n (2 ^ F - 1)).toInt = ((2 ^ F : Nat) : Int) - 1 := by
    rw [toInt_ofNat_of_lt (by omega), Nat.cast_sub Nat.one_le_two_pow, Nat.cast_one]
  have hpow : (0 : Int) < ((2 ^ F : Nat) : Int) := by positivity
  simp only [scaleByShift, tdivByShift, BitVec.toInt_sshiftRight, BitVec.toInt_add,
    BitVec.msb_eq_toInt, hprod, decide_eq_true_eq]
  split
  · rw [hbit, Int.bmod_eq_of_le (by omega) (by omega)]
  · rw [BitVec.toInt_zero, Int.bmod_eq_of_le (by omega) (by omega)]

end ScaleByShift

/-- Settles O13: the shift of the biased dividend is `tdiv`, and at `ANG_W + 8` bits nothing overflows. -/
theorem biasedShiftRealisesTheDivision : Obligations.BiasedShiftRealisesTheDivision := by
  unfold Obligations.BiasedShiftRealisesTheDivision
  refine ⟨tdivByShift_eq_tdiv, fun angW n F angle hF hn => ?_⟩
  rw [toInt_scaleByShift angle hF hn, tdivByShift_eq_tdiv, scale_eq_tdiv, tdiv]

/-- With `F = 0` the angle field is 100 times the angle, modulo `2^32`. -/
theorem wrap32_scale_zero_toNat {angW : Nat} (angle : BitVec angW) :
    ((wrap32 (scale 0 angle)).toNat : Int) = angle.toInt * 100 % 2 ^ 32 := by
  rw [wrap32_toNat, scale_zero_frac]

/-- Reducing the angle before the product changes nothing. -/
theorem angle32FromLowBits_toNat {angW : Nat} (angle : BitVec angW) :
    ((angle32FromLowBits angle).toNat : Int) = angle.toInt * 100 % 2 ^ 32 := by
  have hlow : ((BitVec.ofInt 32 angle.toInt).toNat : Int) = angle.toInt % 2 ^ 32 := wrap32_toNat _
  rw [angle32FromLowBits, BitVec.toNat_ofNat]
  omega

/-- Settles O14: both forms are 100 times the angle modulo `2^32`, and 4 divides 100. -/
theorem wholeDegreesUseTheLowBits : Obligations.WholeDegreesUseTheLowBits := by
  unfold Obligations.WholeDegreesUseTheLowBits
  intro angW angle
  have hfield := wrap32_scale_zero_toNat angle
  constructor
  · exact BitVec.eq_of_toNat_eq (Int.natCast_inj.mp (hfield.trans (angle32FromLowBits_toNat angle).symm))
  · apply BitVec.eq_of_toNat_eq
    rw [extractLsb'_toNat_eq_div, BitVec.toNat_zero]
    omega

end Sys2Proof.Machine
end

/-! ## The angle field under ACC (41_sweep_accumulator.md section 3) -/

section
namespace Sys2Proof.Machine

variable {P : Params} (b : Block P)

/-- Under ACC the range of the angle field is a range of `cur`, whatever `F` is. -/
theorem angleInRange_buildAngle_iff (hP : P.accLegal = true) :
    AngleInRange P.fracW (buildAngle P.angW P.fracW b.cur).toInt ↔ b.cur.toNat ≤ 21474836 := by
  have hcenti : tdiv ((buildAngle P.angW P.fracW b.cur).toInt * 100) ((2 ^ P.fracW : Nat) : Int) =
      (b.cur.toNat : Int) * 100 := scale_buildAngle b.cur (Params.angle_fits_of_accLegal hP)
  rw [AngleInRange, hcenti]
  omega

theorem Block.cur_toNat_lt_of_cntW_le {n : Nat} (hn : P.cntW ≤ n) : b.cur.toNat < 2 ^ n :=
  b.cur.isLt.trans_le (Nat.pow_le_pow_right (by decide) hn)

theorem wrap32_natCast_toNat (m : Nat) : (wrap32 (m : Int)).toNat = m % 2 ^ 32 := by
  exact_mod_cast wrap32_toNat (m : Int)

theorem Block.portFrame_payload_7_toNat (hP : P.accLegal = true) :
    b.portFrame.payload[7].toNat = b.cur.toNat * 100 % 2 ^ 32 / 256 ^ 3 := by
  have hbyte : b.portFrame.payload[7] =
      angleByte (wrap32 (scale P.fracW (buildAngle P.angW P.fracW b.cur))) 3 := rfl
  have hcenti : scale P.fracW (buildAngle P.angW P.fracW b.cur) = ((b.cur.toNat * 100 : Nat) : Int) := by
    rw [scale_buildAngle b.cur (Params.angle_fits_of_accLegal hP), Nat.cast_mul, Nat.cast_ofNat]
  rw [hbyte, angleByte_three_toNat, hcenti, wrap32_natCast_toNat]

/-- Settles O17: the range is `cur <= 21474836`, which 24 bits of `cur` or a small bound cannot leave, and 16
bits keep the field below `2^24`. -/
theorem sweepAngleFieldDoesNotWrap : Obligations.SweepAngleFieldDoesNotWrap := by
  unfold Obligations.SweepAngleFieldDoesNotWrap
  intro P b hP
  have hiff := angleInRange_buildAngle_iff b hP
  refine ⟨hiff, fun hw => hiff.mpr ?_, fun hrange hbound => hiff.mpr ?_, fun hw => ?_⟩
  · have hcur := b.cur_toNat_lt_of_cntW_le hw
    omega
  · rw [Block.InRange] at hrange
    omega
  · have hcur := b.cur_toNat_lt_of_cntW_le hw
    apply BitVec.eq_of_toNat_eq
    rw [b.portFrame_payload_7_toNat hP, BitVec.toNat_zero, Nat.mod_eq_of_lt (by omega)]
    omega

/-- The frame the port shows, as a number. -/
theorem Block.flat_portFrame_toNat (hP : P.accLegal = true) :
    (flat b.portFrame.payload).toNat = 0xA4 + b.pins.cfg.speedLimit.toNat % 2 ^ 16 * 2 ^ 16
      + b.cur.toNat * 100 % 2 ^ 32 * 2 ^ 32 := by
  have hflat := flat_enc_toNat P.fracW (buildAngle P.angW P.fracW b.cur) b.pins.cfg.speedLimit
    b.pins.cfg.deviceId
  rw [scale_buildAngle b.cur (Params.angle_fits_of_accLegal hP)] at hflat
  rw [Block.portFrame]
  omega

theorem Block.frameValid_of_control (hd : b.pins.drive = .control) :
    b.frameValid = (b.pins.tick && !b.pins.rst) := by
  rw [Block.frameValid, Pins.selectsTick, decide_eq_true hd, Bool.true_and, Bool.and_comm]

/-- Settles O18: the ports are `cur` itself and the fields of the frame for it. -/
theorem portsShowTheCurrentAngle : Obligations.PortsShowTheCurrentAngle := by
  unfold Obligations.PortsShowTheCurrentAngle
  exact fun P b hP => ⟨rfl, b.portFrame_arbId, b.flat_portFrame_toNat hP, b.frameValid_of_control⟩

end Sys2Proof.Machine
end

/-! ## The adder and the wrap (41_sweep_accumulator.md section 1, 70_reset_and_hazards.md R178) -/

section
namespace Sys2Proof.Machine

variable {cntW : Nat} (cur stepSize wrapBound : BitVec cntW)

theorem advance_toNat :
    (advance cur stepSize wrapBound).toNat =
      if wrapBound.toNat ≤ cur.toNat + stepSize.toNat then 0 else cur.toNat + stepSize.toNat := by
  split
  case isTrue hle => rw [advance_of_le _ _ _ hle, BitVec.toNat_zero]
  case isFalse hlt => exact advance_toNat_of_lt _ _ _ (not_le.mp hlt)

/-- At `CNT_W` bits or more the bound is compared with the sum modulo `2^n`, and that is what is stored. -/
theorem advanceAtWidth_toNat {n : Nat} (hn : cntW ≤ n) :
    (advanceAtWidth n cur stepSize wrapBound).toNat =
      if wrapBound.toNat ≤ (cur.toNat + stepSize.toNat) % 2 ^ n then 0
      else (cur.toNat + stepSize.toNat) % 2 ^ n := by
  have hext : ∀ v : BitVec cntW, v.toNat % 2 ^ n = v.toNat := fun v =>
    Nat.mod_eq_of_lt (v.isLt.trans_le (Nat.pow_le_pow_right (by decide) hn))
  have hbound := wrapBound.isLt
  simp only [advanceAtWidth, BitVec.le_def, BitVec.toNat_add, BitVec.toNat_setWidth, hext]
  split
  · rw [BitVec.toNat_zero]
  case isFalse hlow =>
    rw [BitVec.toNat_setWidth, BitVec.toNat_add, BitVec.toNat_setWidth, BitVec.toNat_setWidth, hext, hext]
    exact Nat.mod_eq_of_lt (by omega)

/-- Settles O19: one bit more holds every sum of two `CNT_W`-bit numbers, so nothing is reduced. -/
theorem oneMoreBitMakesTheAdderExact : Obligations.OneMoreBitMakesTheAdderExact := by
  unfold Obligations.OneMoreBitMakesTheAdderExact
  intro cntW n cur stepSize wrapBound hn
  have hsum : cur.toNat + stepSize.toNat < 2 ^ n :=
    calc cur.toNat + stepSize.toNat < 2 ^ cntW + 2 ^ cntW := Nat.add_lt_add cur.isLt stepSize.isLt
      _ = 2 ^ (cntW + 1) := by rw [pow_succ, mul_two]
      _ ≤ 2 ^ n := Nat.pow_le_pow_right (by decide) hn
  apply BitVec.eq_of_toNat_eq
  rw [advanceAtWidth_toNat _ _ _ (Nat.le_of_succ_le hn), advance_toNat, Nat.mod_eq_of_lt hsum]

/-- Settles O20: below `2^CNT_W` nothing is lost; at it both store 0; above it the reduced sum is positive
and below `cur`, so it is stored where 0 is due. -/
theorem narrowAdderIsWrongExactlyAboveTheRange : Obligations.NarrowAdderIsWrongExactlyAboveTheRange := by
  unfold Obligations.NarrowAdderIsWrongExactlyAboveTheRange
  intro cntW cur stepSize wrapBound hrange
  have hstep := stepSize.isLt
  have hbound := wrapBound.isLt
  rw [← BitVec.toNat_ne_iff_ne, advanceAtWidth_toNat _ _ _ le_rfl, advance_toNat]
  obtain hlt | heq | hgt := lt_trichotomy (cur.toNat + stepSize.toNat) (2 ^ cntW)
  · rw [Nat.mod_eq_of_lt hlt]
    simp [hlt.le]
  · rw [heq, Nat.mod_self]
    simp [hbound.le]
  · have hreduced : (cur.toNat + stepSize.toNat) % 2 ^ cntW = cur.toNat + stepSize.toNat - 2 ^ cntW := by
      rw [Nat.mod_eq_sub_mod hgt.le, Nat.mod_eq_of_lt (by omega)]
    rw [hreduced, if_neg (by omega), if_pos (by omega)]
    omega

/-- Settles O21: below the bound nothing is reduced, and from the bound on a remainder of 0 is a multiple. -/
theorem advanceIsNoModuloCounter : Obligations.AdvanceIsNoModuloCounter := by
  unfold Obligations.AdvanceIsNoModuloCounter
  intro cntW cur stepSize wrapBound hrange
  rw [advance_toNat]
  split
  case isTrue hle => rw [Nat.dvd_iff_mod_eq_zero, eq_comm, or_iff_right (not_lt.mpr hle)]
  case isFalse hlt =>
    have hlt := not_le.mp hlt
    simp [hlt, Nat.mod_eq_of_lt]

/-- Settles O22: the two branches of the advance, the first strictly upward because the step is positive. -/
theorem advanceClimbsOrWrapsToZero : Obligations.AdvanceClimbsOrWrapsToZero := by
  unfold Obligations.AdvanceClimbsOrWrapsToZero
  intro cntW cur stepSize wrapBound hpos
  obtain hlt | hle := lt_or_ge (cur.toNat + stepSize.toNat) wrapBound.toNat
  · refine .inl ⟨hlt, ?_⟩
    rw [advance_toNat_of_lt _ _ _ hlt]
    omega
  · exact .inr ⟨hle, advance_of_le _ _ _ hle⟩

end Sys2Proof.Machine
end

/-! ## Where each instruction completes, and what it leaves unchanged -/

section
namespace Sys2Proof.Machine

/-- Settles O23: TICK's one effect records the port's frame of the old `cur` and stores the advance. -/
theorem tickEmitsThenAdvances : Obligations.TickEmitsThenAdvances := by
  unfold Obligations.TickEmitsThenAdvances
  exact fun P b hP => ⟨b.ticked, b.portFrame, exec_tick b, advance_toNat _ _ _, b.ticked_emitted,
    b.portFrame_arbId, b.flat_portFrame_toNat hP, b.ticked_pins, b.ticked_future, b.ticked_encoded⟩

/-- Settles O25: HOLD's meaning is the state it is given. -/
theorem holdChangesNothing : Obligations.HoldChangesNothing := by
  unfold Obligations.HoldChangesNothing
  exact fun ⟨_, b⟩ => exec_hold b

/-- Settles O27: POSCTL_SPD packs its two fields with `enc_id` and touches the encoder's record alone. -/
theorem posctlSpdOutputsItsFrame : Obligations.PosctlSpdOutputsItsFrame := by
  unfold Obligations.PosctlSpdOutputsItsFrame
  exact fun speed angle P b => ⟨_, _, exec_posctlSpd b speed angle, b.output_encoded _, pack_arbId _,
    flat_pack_toNat _, b.output_cur _, b.output_emitted _, b.output_pins _, b.output_future _⟩

/-- Settles O28: each of the four meanings is one update of the block, and its field lemmas say the rest. -/
theorem instructionsChangeOnlyTheirOwn : Obligations.InstructionsChangeOnlyTheirOwn := by
  unfold Obligations.InstructionsChangeOnlyTheirOwn
  intro i P b t h
  cases i with
  | posctlSpd speed angle =>
    cases (exec_posctlSpd b speed angle).symm.trans h
    exact ⟨_, rfl, b.output_pins _, b.output_future _, fun _ => b.output_emitted _,
      fun _ _ => b.output_cur _, fun hno => absurd rfl (hno speed angle)⟩
  | reset t =>
    cases (exec_reset b t).symm.trans h
    exact ⟨_, rfl, b.setCur_pins _, b.setCur_future _, fun _ => b.setCur_emitted _,
      fun _ hno => absurd rfl (hno t), fun _ => b.setCur_encoded _⟩
  | tick =>
    cases (exec_tick b).symm.trans h
    exact ⟨_, rfl, b.ticked_pins, b.ticked_future, fun hno => absurd rfl hno,
      fun hno _ => absurd rfl hno, fun _ => b.ticked_encoded⟩
  | hold =>
    cases (exec_hold b).symm.trans h
    exact ⟨b, rfl, rfl, rfl, fun _ => rfl, fun _ _ => rfl, fun _ => rfl⟩

end Sys2Proof.Machine
end

/-! ## Which instruction a step runs (30_encoding.md section 4) -/

section
namespace Sys2Proof.Machine

theorem endOfStep_next {P : Params} (b : Block P) : endOfStep (.next ⟨P, b⟩) = .next ⟨P, b.nextPins⟩ := rfl

/-- Settles O29: the step is the decoded instruction's, and the next pins are the head of the list, or idle. -/
theorem stepRunsTheDecodedInstruction : Obligations.StepRunsTheDecodedInstruction := by
  unfold Obligations.StepRunsTheDecodedInstruction
  intro P b i hdec
  have hstep := step_of_decode b hdec
  refine ⟨hstep, fun b' hexec => ?_⟩
  rw [hstep, hexec, endOfStep_next]
  refine ⟨fun hnil => ?_, fun p rest hcons => ?_⟩
  · rw [b'.nextPins_of_nil hnil]
    rfl
  · rw [b'.nextPins_of_cons hcons]

/-- Settles O30: the decoded instruction of a clock cycle is read off the two control pins. -/
theorem controlPinsSelectTheStep : Obligations.ControlPinsSelectTheStep := by
  unfold Obligations.ControlPinsSelectTheStep
  intro P b hd
  have hdec := decode_fetch_control b hd
  exact ⟨fun hr => step_of_decode b (decode_fetch_of_rst b hd hr),
    fun hr ht => step_of_decode b (by rw [hdec, hr, ht]; rfl),
    fun hr ht => step_of_decode b (by rw [hdec, hr, ht]; rfl)⟩

/-- A whole RESET step: `cur` is 0, nothing leaves, and the environment's next pins are taken. -/
theorem step_reset_next {P : Params} {b : Block P} (hd : b.pins.drive = .control) (hr : b.pins.rst = true) :
    ∃ b' : Block P, step ⟨P, b⟩ = .next ⟨P, b'⟩ ∧ b'.cur.toNat = 0 ∧ b'.emitted = b.emitted ∧
      b'.encoded = b.encoded ∧ b'.pins = b.future.headD b.pins.idle := by
  refine ⟨_, step_control_reset b hd hr, ?_, ?_, ?_, ?_⟩
  · rw [Block.nextPins_cur, Block.setCur_cur, BitVec.toNat_zero]
  · rw [Block.nextPins_emitted, Block.setCur_emitted]
  · rw [Block.nextPins_encoded, Block.setCur_encoded]
  · rw [Block.nextPins_pins, Block.setCur_pins, Block.setCur_future]

/-- Settles O33: `rst` alone makes it a RESET step, so `tick` being high as well changes nothing. -/
theorem resetWinsOverTick : Obligations.ResetWinsOverTick := by
  unfold Obligations.ResetWinsOverTick
  intro P b hd hr _
  obtain ⟨b', hstep, hcur, hemitted, -⟩ := step_reset_next hd hr
  exact ⟨b.frameValid_of_rst hr, b', hstep, hcur, hemitted⟩

/-- Settles O52: with the bound at `cur` or below every sum reaches it; other steps do not read the bound. -/
theorem loweredBoundActsAtTheNextTick : Obligations.LoweredBoundActsAtTheNextTick := by
  unfold Obligations.LoweredBoundActsAtTheNextTick
  intro P b b' hlow hstep
  have hcur := step_cur hstep
  refine ⟨fun htick => ?_, fun hnotick hnoreset => ?_⟩
  · rw [hcur, if_pos htick, advance_of_le _ _ _ (hlow.trans (Nat.le_add_right _ _)), BitVec.toNat_zero]
  · rw [hcur, hnotick, hnoreset]
    rfl

/-- Settles O34: the stand-alone encoder's word carries the command of its pins, so the step packs it whole. -/
theorem standAloneEncoderOutputsEncode : Obligations.StandAloneEncoderOutputsEncode := by
  unfold Obligations.StandAloneEncoderOutputsEncode
  intro P b hd
  refine ⟨_, pack b.encCommand, step_encoder b hd, ?_, rfl, ?_, rfl, rfl, ?_, ?_⟩
  · rw [Block.nextPins_encoded, Block.output_encoded]
  · rw [Block.encCommand, ← enc_eq_pack, flat_enc_toNat, scale_eq_tdiv]
  · rw [Block.nextPins_cur, Block.output_cur]
  · rw [Block.nextPins_emitted, Block.output_emitted]

end Sys2Proof.Machine
end

/-! ## Raw words and the table's mask and match (30_encoding.md section 3) -/

section
namespace Sys2Proof.Machine

/-- The table's mask and match are about the two lowest bytes. -/
theorem frame8_pattern_iff (w : Flat) :
    w &&& 0x000000000000FFFF#64 = 0x00000000000000A4#64 ↔ byteOf w 0 = 0xA4#8 ∧ byteOf w 1 = 0x00#8 := by
  have hmask : (w &&& 0x000000000000FFFF#64).toNat = w.toNat % 2 ^ 16 := by
    rw [BitVec.toNat_and]
    exact Nat.and_two_pow_sub_one_eq_mod w.toNat 16
  rw [← BitVec.toNat_inj, ← BitVec.toNat_inj, ← BitVec.toNat_inj, hmask, byteOf_toNat, byteOf_toNat]
  simp only [BitVec.toNat_ofNat]
  omega

theorem decode_of_frame8_pattern {w : Flat}
    (hw : w &&& 0x000000000000FFFF#64 = 0x00000000000000A4#64) :
    decode (wordBytes 8 w.toNat) = .ok (.posctlSpd (w.extractLsb' 16 16) (w.extractLsb' 32 32)) := by
  obtain ⟨hop, hres⟩ := (frame8_pattern_iff w).mp hw
  rw [decode_wordBytes, if_neg (not_not.mpr hop), if_neg (not_not.mpr hres)]

theorem decode_error_of_no_frame8_pattern {w : Flat}
    (hw : w &&& 0x000000000000FFFF#64 ≠ 0x00000000000000A4#64) :
    ∃ e, decode (wordBytes 8 w.toNat) = .error e := by
  rw [decode_wordBytes]
  by_cases hop : byteOf w 0 = 0xA4#8
  · have hres : byteOf w 1 ≠ 0x00#8 := fun hres => hw ((frame8_pattern_iff w).mpr ⟨hop, hres⟩)
    exact ⟨.badReserved, by rw [if_neg (not_not.mpr hop), if_pos hres]⟩
  · exact ⟨.badOpcode, by rw [if_pos hop]⟩

/-- Packing the fields read from a frame gives the frame back. -/
theorem flat_pack_of_frame8_pattern {idW : Nat} {w : Flat} (id : BitVec idW)
    (hw : w &&& 0x000000000000FFFF#64 = 0x00000000000000A4#64) :
    flat (pack { angle32 := w.extractLsb' 32 32, speed16 := w.extractLsb' 16 16, id := id }).payload = w := by
  obtain ⟨hop, hres⟩ := (frame8_pattern_iff w).mp hw
  have hlow := congrArg BitVec.toNat hop
  have hnext := congrArg BitVec.toNat hres
  have hfits := w.isLt
  rw [byteOf_toNat, BitVec.toNat_ofNat] at hlow hnext
  apply BitVec.eq_of_toNat_eq
  rw [flat_pack_toNat, extractLsb'_toNat_eq_div, extractLsb'_toNat_eq_div]
  omega

/-- Settles O35: the pattern decides whether the word decodes, and what decodes is packed again. -/
theorem rawWordRunsExactlyWhenItIsAFrame : Obligations.RawWordRunsExactlyWhenItIsAFrame := by
  unfold Obligations.RawWordRunsExactlyWhenItIsAFrame
  intro P b w hd
  constructor
  · intro hw
    obtain ⟨hop, hres⟩ := (frame8_pattern_iff w).mp hw
    refine ⟨_, _, step_frame b hd hop hres, ?_, flat_pack_of_frame8_pattern b.pins.encId hw,
      pack_arbId _, ?_, ?_⟩
    · rw [Block.nextPins_encoded, Block.output_encoded]
    · rw [Block.nextPins_cur, Block.output_cur]
    · rw [Block.nextPins_emitted, Block.output_emitted]
  · intro hw
    obtain ⟨e, he⟩ := decode_error_of_no_frame8_pattern hw
    rw [← b.fetch_frame hd] at he
    exact ⟨e, step_of_error b he⟩

/-- Every setting of the speed field comes from the input that extends it with zeros. -/
theorem speed16_setWidth {spdW : Nat} (hw : 16 ≤ spdW) (v : BitVec 16) : speed16 (v.setWidth spdW) = v := by
  have hfits : v.toNat < 2 ^ spdW := v.isLt.trans_le (Nat.pow_le_pow_right (by decide) hw)
  apply BitVec.eq_of_toNat_eq
  rw [speed16_toNat, BitVec.toNat_setWidth, Nat.mod_eq_of_lt hfits, Nat.mod_eq_of_lt v.isLt]

/-- Settles O38: the pattern decides the decode; zero extension reaches every speed field; and an angle field
of 1 is no multiple of 4. -/
theorem framePatternIsTheTablesMaskAndMatch : Obligations.FramePatternIsTheTablesMaskAndMatch := by
  unfold Obligations.FramePatternIsTheTablesMaskAndMatch
  refine ⟨fun w => ⟨decode_of_frame8_pattern, decode_error_of_no_frame8_pattern⟩,
    fun spdW v hw => ⟨v.setWidth spdW, speed16_setWidth hw v⟩, 1#32, fun angW angle h => ?_⟩
  have hfield := wrap32_scale_zero_toNat angle
  rw [h, BitVec.toNat_ofNat] at hfield
  omega

end Sys2Proof.Machine
end

/-! ## Placed words, known words, and the state after reset -/

section
namespace Sys2Proof.Machine

theorem decode_of_decodeTableWord {nbits w : Nat} {i : Instr} (h : decodeTableWord nbits w = some i) :
    decode (wordBytes ((nbits + 7) / 8) w) = .ok i := by
  unfold decodeTableWord at h
  split at h
  · rwa [← Option.some.inj h]
  · cases h

/-- The two bits of a CTRL word, in the byte form it is carried in. -/
theorem ctrlByte_testBit {w : Nat} (hw : w < 4) :
    [ctrlByte (w.testBit 1) (w.testBit 0)] = wordBytes 1 w := by
  revert w
  decide

/-- A placed CTRL word stands on the two control pins, which are all of its bits. -/
theorem Block.fetch_withWord_ctrl {P : Params} (b : Block P) {w : Nat} (hw : w < 4) :
    (b.withWord 8 w).fetch = wordBytes 1 w :=
  (Block.fetch_control _ rfl).trans (ctrlByte_testBit hw)

/-- A placed FRAME8 word stands as the raw word. -/
theorem Block.fetch_withWord_frame8 {P : Params} (b : Block P) {w : Nat} (hw : w < 2 ^ 64) :
    (b.withWord 64 w).fetch = wordBytes 8 w := by
  rw [Block.fetch_frame (w := BitVec.ofNat 64 w) _ rfl, BitVec.toNat_ofNat, Nat.mod_eq_of_lt hw]

/-- Settles O36: what the next step fetches is the placed word's bytes, which decode to the instruction. -/
theorem placedWordRunsNext : Obligations.PlacedWordRunsNext := by
  unfold Obligations.PlacedWordRunsNext
  rintro ⟨P, b⟩ nbits w i hform htable
  have hdec := decode_of_decodeTableWord htable
  have hcur : (State.withFetchWord ⟨P, b⟩ nbits w).block.cur.toNat = b.cur.toNat :=
    congrArg BitVec.toNat (b.withWord_cur nbits w)
  refine ⟨step_of_decode (b.withWord nbits w) ?_, hcur⟩
  obtain ⟨rfl, hw⟩ | ⟨rfl, hw⟩ := hform
  · rwa [b.fetch_withWord_ctrl hw]
  · rwa [b.fetch_withWord_frame8 hw]

/-- Settles O39: each word is evaluated. -/
theorem knownWordsDecodeAsTheSpecSays : Obligations.KnownWordsDecodeAsTheSpecSays := by
  unfold Obligations.KnownWordsDecodeAsTheSpecSays
  exact ⟨rfl, rfl, rfl, rfl, rfl, rfl, rfl⟩

/-- Settles O42: each field of the literal state is evaluated. -/
theorem resetStateHoldsTheSpecsValues : Obligations.ResetStateHoldsTheSpecsValues := by
  unfold Obligations.ResetStateHoldsTheSpecsValues
  exact ⟨rfl, rfl, rfl, rfl, rfl, rfl, rfl, rfl⟩

end Sys2Proof.Machine
end

/-! ## Runs (20_memory.md section 6, 42_dispatch.md) -/

section
namespace Sys2Proof.Machine

variable {P : Params} {b b' : Block P}

/-- What every step of a block keeps, every run of it keeps. -/
theorem run_keeps_block (I : Block P → Prop)
    (hI : ∀ b b', I b → step ⟨P, b⟩ = .next ⟨P, b'⟩ → I b') {n : Nat} (hb : I b)
    (h : run n ⟨P, b⟩ = .next ⟨P, b'⟩) : I b' := by
  have hkeep : ∀ s t : State, (∃ c, s = ⟨P, c⟩ ∧ I c) → step s = .next t → ∃ c, t = ⟨P, c⟩ ∧ I c := by
    rintro _ t ⟨c, rfl, hc⟩ hstep
    obtain ⟨c', rfl⟩ := step_next_params hstep
    exact ⟨c', rfl, hI c c' hc hstep⟩
  obtain ⟨c, heq, hc⟩ := run_keeps _ hkeep n _ _ ⟨b, rfl, hb⟩ h
  cases heq
  exact hc

theorem pinsAt_of_step (h : step ⟨P, b⟩ = .next ⟨P, b'⟩) (k : Nat) : b'.pinsAt k = b.pinsAt (k + 1) := by
  obtain ⟨hpins, hfuture⟩ := step_pins_future h
  exact Block.pinsAt_congr k hpins hfuture

theorem Block.ticksIn_one (b : Block P) : b.ticksIn 1 = if b.pins.selectsTick then 1 else 0 :=
  Nat.add_zero _

theorem ticksIn_of_step (h : step ⟨P, b⟩ = .next ⟨P, b'⟩) (n : Nat) :
    b.ticksIn (n + 1) = b.ticksIn 1 + b'.ticksIn n := by
  obtain ⟨hpins, hfuture⟩ := step_pins_future h
  rw [Block.ticksIn, Block.ticksIn_congr n hpins hfuture, b.ticksIn_one]

/-- A step adds the port's frame once if it is a TICK step, and not at all otherwise. -/
theorem step_emitted_replicate (h : step ⟨P, b⟩ = .next ⟨P, b'⟩) :
    b'.emitted = b.emitted ++ List.replicate (b.ticksIn 1) b.portFrame := by
  rw [step_emitted h, b.ticksIn_one, Block.frameValid]
  split
  · rfl
  · exact (List.append_nil _).symm

/-- What a run adds to the port's record: one frame per TICK step. -/
theorem run_emitted (n : Nat) (h : run n ⟨P, b⟩ = .next ⟨P, b'⟩) :
    ∃ new, b'.emitted = b.emitted ++ new ∧ new.length = b.ticksIn n := by
  induction n generalizing b with
  | zero =>
    rw [run_zero] at h
    cases h
    exact ⟨[], (List.append_nil _).symm, rfl⟩
  | succ n ih =>
    obtain ⟨t, hstep, hrest⟩ := run_succ_next h
    obtain ⟨c, rfl⟩ := step_next_params hstep
    obtain ⟨new, hnew, hlen⟩ := ih hrest
    refine ⟨List.replicate (b.ticksIn 1) b.portFrame ++ new, ?_, ?_⟩
    · rw [hnew, step_emitted_replicate hstep, List.append_assoc]
    · rw [List.length_append, List.length_replicate, hlen, ticksIn_of_step hstep n]

/-- Settles O47: by induction over the run, each step adding a frame exactly when it is a TICK step. -/
theorem runsAddOneFramePerTick : Obligations.RunsAddOneFramePerTick := by
  unfold Obligations.RunsAddOneFramePerTick
  exact fun P b b' n => run_emitted n

/-- A state that a step leaves as it is stays so for ever. -/
theorem run_of_step_self {s : State} (h : step s = .next s) (n : Nat) : run n s = .next s := by
  induction n with
  | zero => exact run_zero s
  | succ n ih => rw [run_succ_of_next h, ih]

theorem Pins.idle_eq_self {p : Pins P} (hd : p.drive = .control) (hr : p.rst = false)
    (ht : p.tick = false) : p.idle = p := by
  obtain ⟨drive, rst, tick, cfg, angle, speed, id⟩ := p
  cases hd
  cases hr
  cases ht
  rfl

/-- Idle pins with nothing more to come drive themselves again. -/
theorem nextPins_eq_self_of_idle (hd : b.pins.drive = .control) (hr : b.pins.rst = false)
    (ht : b.pins.tick = false) (hf : b.future = []) : b.nextPins = b := by
  rw [b.nextPins_of_nil hf, Pins.idle_eq_self hd hr ht]

/-- Settles O48: the step is a HOLD step from the state to itself. -/
theorem ceasingTicksFreezesTheBlock : Obligations.CeasingTicksFreezesTheBlock := by
  unfold Obligations.CeasingTicksFreezesTheBlock
  intro P b n hd hr ht hf
  refine run_of_step_self ?_ n
  rw [step_control_hold b hd hr ht, nextPins_eq_self_of_idle hd hr ht hf]

/-- Settles O49: RESET stores 0, and the frame TICK then emits is that of the port for angle 0. -/
theorem startEmitsTheFrameForZero : Obligations.StartEmitsTheFrameForZero := by
  unfold Obligations.StartEmitsTheFrameForZero
  intro P b p rest hP hd hr hf hpd hpr hpt
  obtain ⟨c, hreset, hcur, hemitted, -, hpins⟩ := step_reset_next hd hr
  rw [hf, List.headD_cons] at hpins
  subst hpins
  refine ⟨c.ticked.nextPins, c.portFrame, ?_, ?_, c.portFrame_arbId, ?_⟩
  · rw [run_succ_of_next hreset, run_succ_of_next (step_control_tick c hpd hpr hpt), run_zero]
  · rw [Block.nextPins_emitted, Block.ticked_emitted, hemitted]
  · rw [c.flat_portFrame_toNat hP, hcur, Nat.zero_mul, Nat.zero_mod, Nat.zero_mul, Nat.add_zero]

/-- RESET steps, at least one of them, leave 0 and add nothing. -/
theorem run_resets (n : Nat) (hn : 1 ≤ n)
    (hpins : ∀ k < n, (b.pinsAt k).drive = .control ∧ (b.pinsAt k).rst = true) :
    ∃ b' : Block P, run n ⟨P, b⟩ = .next ⟨P, b'⟩ ∧ b'.cur.toNat = 0 ∧
      b'.emitted = b.emitted ∧ b'.encoded = b.encoded := by
  induction n generalizing b with
  | zero => exact absurd hn (by decide)
  | succ n ih =>
    obtain ⟨hd, hr⟩ := hpins 0 n.succ_pos
    obtain ⟨c, hstep, hcur, hemitted, hencoded, -⟩ := step_reset_next hd hr
    rw [run_succ_of_next hstep, ← hemitted, ← hencoded]
    obtain rfl | hpos := Nat.eq_zero_or_pos n
    · exact ⟨c, run_zero _, hcur, rfl, rfl⟩
    · refine ih hpos fun k hk => ?_
      rw [pinsAt_of_step hstep]
      exact hpins (k + 1) (by omega)

/-- Settles O50: by induction over the cycles, each a RESET step. -/
theorem severalResetsEqualOne : Obligations.SeveralResetsEqualOne := by
  unfold Obligations.SeveralResetsEqualOne
  exact fun P b n => run_resets n

end Sys2Proof.Machine
end

/-! ## The sweep over runs (41_sweep_accumulator.md section 3) -/

section
namespace Sys2Proof.Machine

section Sweep
variable {P : Params} {b b' : Block P} {k n : Nat}

/-- The block is at position `k` of the sweep of a constant configuration with a positive step and bound. -/
structure Block.OnSweep (b : Block P) (k : Nat) : Prop where
  constantCfg : b.ConstantCfg
  one_le_step : 1 ≤ b.pins.cfg.stepSize.toNat
  one_le_bound : 1 ≤ b.pins.cfg.wrapBound.toNat
  cur_eq : b.cur.toNat = sweepAngle b.pins.cfg.stepSize.toNat b.pins.cfg.wrapBound.toNat k

/-- The frame of position `k` of the sweep. -/
def sweepFrame (c : Cfg P) (k : Nat) : CanFrame P.idW :=
  frameFor P c (sweepAngle c.stepSize.toNat c.wrapBound.toNat k)

theorem Block.OnSweep.portFrame_eq (h : b.OnSweep k) : b.portFrame = sweepFrame b.pins.cfg k := by
  rw [b.portFrame_eq_frameFor, h.cur_eq, sweepFrame]

theorem Block.OnSweep.step (h : b.OnSweep k) (hstep : Machine.step ⟨P, b⟩ = .next ⟨P, b'⟩) :
    b'.OnSweep (b.nextTick k) ∧ b'.pins.cfg = b.pins.cfg := by
  obtain ⟨hconst, hcfg⟩ := h.constantCfg.step hstep
  have hcur := step_cur_sweepAngle h.one_le_step h.one_le_bound h.cur_eq hstep
  rw [← hcfg] at hcur
  exact ⟨⟨hconst, hcfg ▸ h.one_le_step, hcfg ▸ h.one_le_bound, hcur⟩, hcfg⟩

theorem Block.SweepsFor.step (h : b.SweepsFor (n + 1)) (hstep : Machine.step ⟨P, b⟩ = .next ⟨P, b'⟩) :
    b'.SweepsFor n := by
  intro j hj
  rw [pinsAt_of_step hstep]
  exact h (j + 1) (by omega)

/-- Without a RESET the position on the sweep counts the ticks. -/
theorem Block.nextTick_eq_add (hno : b.pins.selectsReset = false) : b.nextTick k = k + b.ticksIn 1 := by
  rw [Block.nextTick, b.ticksIn_one, hno]
  split <;> rfl

/-- A step on the sweep emits the frame of its position if it is a TICK step. -/
theorem Block.OnSweep.step_emitted (h : b.OnSweep k) (hstep : Machine.step ⟨P, b⟩ = .next ⟨P, b'⟩) :
    b'.emitted = b.emitted ++ (List.range' k (b.ticksIn 1)).map (sweepFrame b.pins.cfg) := by
  rw [step_emitted_replicate hstep, h.portFrame_eq, b.ticksIn_one]
  split <;> rfl

/-- A run along the sweep from position `k`: it emits the frames of the positions it ticks at. -/
theorem run_sweep (n : Nat) (hsweep : b.OnSweep k) (hpins : b.SweepsFor n) :
    ∃ b' : Block P, run n ⟨P, b⟩ = .next ⟨P, b'⟩ ∧ b'.OnSweep (k + b.ticksIn n) ∧
      b'.pins.cfg = b.pins.cfg ∧
      b'.emitted = b.emitted ++ (List.range' k (b.ticksIn n)).map (sweepFrame b.pins.cfg) := by
  induction n generalizing b k with
  | zero => exact ⟨b, run_zero _, hsweep, rfl, (List.append_nil _).symm⟩
  | succ n ih =>
    obtain ⟨hnoreset, hnoraw⟩ := hpins 0 n.succ_pos
    obtain ⟨c, hstep⟩ := step_next_of_no_raw_word hnoraw
    obtain ⟨hnext, hcfg⟩ := hsweep.step hstep
    rw [Block.nextTick_eq_add hnoreset] at hnext
    obtain ⟨b', hrun, hfinal, hcfg', hnew⟩ := ih hnext (hpins.step hstep)
    rw [run_succ_of_next hstep, ticksIn_of_step hstep n, ← Nat.add_assoc]
    refine ⟨b', hrun, hfinal, hcfg'.trans hcfg, ?_⟩
    rw [hnew, hsweep.step_emitted hstep, hcfg, List.append_assoc, ← List.map_append, List.range'_append_1]

/-- Settles O44: `cur = 0` is position 0 of the sweep, and the run ticks through the positions from there. -/
theorem sweepFollowsTheClosedForm : Obligations.SweepFollowsTheClosedForm := by
  unfold Obligations.SweepFollowsTheClosedForm
  intro P b n hcur hconst hpins hs hw
  have hsweep : b.OnSweep 0 := ⟨hconst, hs, hw, by rw [hcur, sweepAngle_zero]⟩
  obtain ⟨b', hrun, hfinal, hcfg, hnew⟩ := run_sweep n hsweep hpins
  have hcur' := hfinal.cur_eq
  rw [hcfg, Nat.zero_add] at hcur'
  rw [← List.range_eq_range'] at hnew
  exact ⟨b', hrun, hcur', hnew⟩

end Sweep

section Period
variable {cntW : Nat} {s w : BitVec cntW}

/-- Repeated advances from 0 run through the sweep. -/
theorem advance_iterate_toNat (hs : 1 ≤ s.toNat) (hw : 1 ≤ w.toNat) (k : Nat) :
    ((fun c => advance c s w)^[k] 0#cntW).toNat = sweepAngle s.toNat w.toNat k := by
  induction k with
  | zero => rw [Function.iterate_zero_apply, BitVec.toNat_zero, sweepAngle_zero]
  | succ k ih =>
    rw [Function.iterate_succ_apply']
    exact advance_sweepAngle hs hw ih

/-- Settles O45: the angles are those of the closed form, whose position counts modulo the period. -/
theorem sweepIsPeriodic : Obligations.SweepIsPeriodic := by
  unfold Obligations.SweepIsPeriodic
  intro cntW s w hs hw angle p
  have hangle : ∀ k, angle k = sweepAngle s.toNat w.toNat k := advance_iterate_toNat hs hw
  have hpos : 1 ≤ p := period_pos hs hw
  refine ⟨hpos, fun k => ?_, fun k => ?_, ?_, ?_, (period_le_iff hs p).mp le_rfl⟩
  · rw [hangle, hangle, sweepAngle, sweepAngle]
    exact congrArg (· * s.toNat) (Nat.add_mod_right k p)
  · rw [hangle]
    exact sweepAngle_le hs hw k
  · rw [hangle, sweepAngle]
    exact congrArg (· * s.toNat) (Nat.mod_eq_of_lt (Nat.sub_lt hpos one_pos))
  · have hbelow : ¬p ≤ p - 1 := by omega
    exact not_le.mp (mt (period_le_iff hs (p - 1)).mpr hbelow)

end Period

section Degenerate
variable {P : Params} {b₀ b b' : Block P}

/-- What a run under the configuration of `b₀` keeps when the angle cannot leave 0. -/
structure Block.StandsAtZero (b₀ b : Block P) : Prop where
  cur_eq : b.cur.toNat = 0
  constantCfg : b.ConstantCfg
  cfg_eq : b.pins.cfg = b₀.pins.cfg
  emitted_eq : ∃ k, b.emitted = b₀.emitted ++ List.replicate k (frameFor P b₀.pins.cfg 0)

theorem advance_toNat_eq_zero_of_degenerate {cntW : Nat} {cur stepSize wrapBound : BitVec cntW}
    (hcur : cur.toNat = 0) (hdeg : stepSize.toNat = 0 ∨ wrapBound.toNat ≤ stepSize.toNat) :
    (advance cur stepSize wrapBound).toNat = 0 := by
  rw [advance_toNat, hcur]
  split <;> omega

theorem Block.StandsAtZero.step (h : b₀.StandsAtZero b)
    (hdeg : b₀.pins.cfg.stepSize.toNat = 0 ∨ b₀.pins.cfg.wrapBound.toNat ≤ b₀.pins.cfg.stepSize.toNat)
    (hstep : Machine.step ⟨P, b⟩ = .next ⟨P, b'⟩) : b₀.StandsAtZero b' := by
  obtain ⟨hconst, hcfg⟩ := h.constantCfg.step hstep
  obtain ⟨k, hk⟩ := h.emitted_eq
  refine ⟨?_, hconst, hcfg.trans h.cfg_eq, k + b.ticksIn 1, ?_⟩
  · rw [step_cur hstep, h.cfg_eq]
    split
    · exact advance_toNat_eq_zero_of_degenerate h.cur_eq hdeg
    split
    · exact BitVec.toNat_zero
    · exact h.cur_eq
  · rw [step_emitted_replicate hstep, hk, b.portFrame_eq_frameFor, h.cur_eq, h.cfg_eq, List.append_assoc,
      List.replicate_append_replicate]

/-- Settles O46: every step keeps the angle at 0, so a TICK can only add the frame for 0 degrees. -/
theorem degenerateStepsStayAtZero : Obligations.DegenerateStepsStayAtZero := by
  unfold Obligations.DegenerateStepsStayAtZero
  intro P b b' n hcur hconst hdeg hrun
  have hstart : b.StandsAtZero b := ⟨hcur, hconst, rfl, 0, (List.append_nil _).symm⟩
  have hend := run_keeps_block b.StandsAtZero (fun _ _ h => h.step hdeg) hstart hrun
  exact ⟨hend.cur_eq, hend.emitted_eq⟩

end Degenerate

end Sys2Proof.Machine
end

/-! ## No step reads the records or the tick interval (10_state.md section 2, R30) -/

section
namespace Sys2Proof.Machine

variable {P : Params} (b : Block P)

/-- `b'` continues `b` as `c` continues `b` without records and interval: it agrees with `c` in what a step
can see, and it has the frames of `c` added to the records of `b`. -/
structure Block.ContinuesAs (b b' c : Block P) : Prop where
  seen_eq : b'.seen = c.seen
  emitted_eq : b'.emitted = b.emitted ++ c.emitted
  encoded_eq : b'.encoded = b.encoded ++ c.encoded

theorem Block.seen_nextPins : b.nextPins.seen = b.seen.nextPins := by
  cases hf : b.future with
  | nil =>
    have hseen : b.seen.future = [] := by rw [Block.seen, hf, List.map_nil]
    rw [b.nextPins_of_nil hf, b.seen.nextPins_of_nil hseen]
    rfl
  | cons p rest =>
    have hseen : b.seen.future = p.ports :: rest.map Pins.ports := by rw [Block.seen, hf, List.map_cons]
    rw [b.nextPins_of_cons hf, b.seen.nextPins_of_cons hseen]
    rfl

/-- What is seen of a block is its angle and the hardware's pins, now and later. -/
theorem Block.seen_eq_of {b c : Block P} (hcur : b.cur = c.cur) (hpins : b.pins.ports = c.pins.ports)
    (hfuture : b.future.map Pins.ports = c.future.map Pins.ports) : b.seen = c.seen := by
  rw [Block.seen, Block.seen, hcur, hpins, hfuture]

theorem map_ports_map_ports (l : List (Pins P)) : (l.map Pins.ports).map Pins.ports = l.map Pins.ports := by
  rw [List.map_map]
  rfl

/-- Every meaning reads the block through what is seen of it, and only appends to the records. -/
theorem exec_seen (i : Instr) : ∃ b' c : Block P, exec i ⟨P, b⟩ = .next ⟨P, b'⟩ ∧
    exec i ⟨P, b.seen⟩ = .next ⟨P, c⟩ ∧ b.ContinuesAs b' c := by
  have hfuture := (map_ports_map_ports b.future).symm
  cases i with
  | posctlSpd speed angle =>
    exact ⟨_, _, exec_posctlSpd b speed angle, exec_posctlSpd b.seen speed angle,
      Block.seen_eq_of rfl rfl hfuture, (List.append_nil _).symm, rfl⟩
  | reset t =>
    exact ⟨_, _, exec_reset b t, exec_reset b.seen t,
      Block.seen_eq_of rfl rfl hfuture, (List.append_nil _).symm, (List.append_nil _).symm⟩
  | tick =>
    exact ⟨_, _, exec_tick b, exec_tick b.seen,
      Block.seen_eq_of rfl rfl hfuture, rfl, (List.append_nil _).symm⟩
  | hold =>
    exact ⟨_, _, exec_hold b, exec_hold b.seen,
      Block.seen_eq_of rfl rfl hfuture, (List.append_nil _).symm, (List.append_nil _).symm⟩

theorem Block.ContinuesAs.nextPins {b b' c : Block P} (h : b.ContinuesAs b' c) :
    b.ContinuesAs b'.nextPins c.nextPins where
  seen_eq := by rw [b'.seen_nextPins, h.seen_eq, c.seen_nextPins]
  emitted_eq := by rw [b'.nextPins_emitted, c.nextPins_emitted, h.emitted_eq]
  encoded_eq := by rw [b'.nextPins_encoded, c.nextPins_encoded, h.encoded_eq]

/-- A step of a block is the step of what is seen of it, up to the frames already recorded. -/
theorem step_seen :
    (∃ r, step ⟨P, b⟩ = .refused r ∧ step ⟨P, b.seen⟩ = .refused r) ∨
    ∃ b' c : Block P, step ⟨P, b⟩ = .next ⟨P, b'⟩ ∧ step ⟨P, b.seen⟩ = .next ⟨P, c⟩ ∧
      b.ContinuesAs b' c := by
  have hfetch : b.seen.fetch = b.fetch := rfl
  cases hdec : decode b.fetch with
  | error e => exact .inl ⟨_, step_of_error b hdec, step_of_error b.seen (hfetch ▸ hdec)⟩
  | ok i =>
    obtain ⟨b', c, hb, hc, hcont⟩ := exec_seen b i
    refine .inr ⟨b'.nextPins, c.nextPins, ?_, ?_, hcont.nextPins⟩
    · rw [step_of_decode b hdec, hb, endOfStep_next]
    · rw [step_of_decode b.seen (hfetch ▸ hdec), hc, endOfStep_next]

/-- Settles O51: both blocks step as the one block that is seen of them. -/
theorem recordsAndIntervalAreNeverRead : Obligations.RecordsAndIntervalAreNeverRead := by
  unfold Obligations.RecordsAndIntervalAreNeverRead
  intro P a b hseen
  have hb := step_seen b
  rw [← hseen] at hb
  obtain ⟨r, har, hsr⟩ | ⟨a', c, hac, hsc, hacont⟩ := step_seen a
  · obtain ⟨r', hbr, hsr'⟩ | ⟨_, _, -, hsc, -⟩ := hb
    · rw [har, hbr, ← hsr, ← hsr']
      exact ⟨fun _ h => h, fun _ h => nomatch hsr.symm.trans h⟩
    · cases hsr.symm.trans hsc
  · obtain ⟨_, -, hsr⟩ | ⟨b', c', hbc, hsc', hbcont⟩ := hb
    · cases hsc.symm.trans hsr
    · cases hsc.symm.trans hsc'
      rw [hac, hbc]
      refine ⟨fun _ h => (nomatch h), fun _ h => ?_⟩
      cases h
      exact ⟨b', c.emitted, c.encoded, rfl, hacont.seen_eq.trans hbcont.seen_eq.symm,
        hacont.emitted_eq, hbcont.emitted_eq, hacont.encoded_eq, hbcont.encoded_eq⟩

end Sys2Proof.Machine
end
